-- ==== Sys2Proof/Word.lean ====
section
/-! DEFINITION. The machine's numbers: mathematical integers, and which of them are words (00_scope.md R7). -/

namespace Sys2Proof

/-- `v ∈ Word` at width `W`: `v` lies in `[-2^(W-1), 2^(W-1) - 1]` (R7).
A cell, an operand, a result and a port value are held as integers, and the invariant `State.WordsFit` says that they are words (log 1). -/
abbrev InWord (W : Nat) (v : Int) : Prop := -2 ^ (W - 1) ≤ v ∧ v ≤ 2 ^ (W - 1) - 1

end Sys2Proof
end

