-- ==== Sys2Proof/Config.lean ====
section
/-! DEFINITION. What is fixed for one machine (00_scope.md R6, 10_state.md R16), the moves a host can make, and the free values. -/

namespace Sys2Proof

/-- `PROFILE` (R2): the instruction set. -/
inductive Profile where
  /-- The normative set: ADD, MUL and HALT, position mode only. -/
  | base
  /-- The optional set of 45_ext_profile.md.
  PRESUMED by the spec itself, from general knowledge (log 19). -/
  | ext
  deriving DecidableEq, Repr

/-- `OVERFLOW_POLICY` (R6): what an exact result outside `Word` does. -/
inductive OverflowPolicy where
  | fault
  | wrap
  deriving DecidableEq, Repr

/-- `RERUN_POLICY` (R6, R63): what `Run` does on a terminal machine.
The spec names one value: a no-op on Halted, the recorded fault again on Faulted. -/
inductive RerunPolicy where
  | noopReport
  deriving DecidableEq, Repr

/-- The parameters of one machine.
`N` is the length of its tape (log 3). -/
structure Config where
  /-- `W`: the width in bits of a cell, an operand and a result. -/
  width    : Nat
  profile  : Profile
  overflow : OverflowPolicy
  rerun    : RerunPolicy
  deriving DecidableEq, Repr

/-- The values this hardware takes (R6). -/
def Config.normative : Config :=
  { width := 64, profile := .base, overflow := .fault, rerun := .noopReport }

/-- FREE VALUE (log 11).
What a `W`-bit status field (R26) shows for an integer outside `Word`: an address `rb + p`, or a program counter.
The spec gives the field its width and states no value there; the field shows this value brought into its width. -/
opaque Config.statusOutOfWord : Nat → Int → Int

/-! ### The host's moves (43_io_ports.md R82) -/

end Sys2Proof

namespace Sys2Proof.Machine

/-- What the host does at a step at which `cmd` is Idle (R82). -/
inductive RunMove where
  | wait
  | run
  deriving DecidableEq, Repr, Inhabited

/-- What the host does at a step at which an input request is outstanding (R74, R78). -/
inductive InMove where
  | wait
  | value (v : Int)
  | fail
  deriving DecidableEq, Repr, Inhabited

/-- What the host does at a step at which an output request is outstanding (R75, R78). -/
inductive OutMove where
  | wait
  | ack
  | fail
  deriving DecidableEq, Repr, Inhabited

end Sys2Proof.Machine

namespace Sys2Proof

open Sys2Proof.Machine

/-- FREE VALUE (log 4): what a free host does at its `n`-th turn while `cmd` is Idle. -/
opaque Config.runMove : Nat → RunMove

/-- FREE VALUE (log 4): what a free host does at its `n`-th turn on the input port; a value is brought into the width of the machine. -/
opaque Config.inMove : Nat → InMove

/-- FREE VALUE (log 4): what a free host does at its `n`-th turn on the output port. -/
opaque Config.outMove : Nat → OutMove

end Sys2Proof
end

