-- ==== Sys2Proof/Machine/State.lean ====
section
/-! DEFINITION. The state of one core (10_state.md R15 to R28), the host's side of its ports, and reset. -/

namespace Sys2Proof.Machine

/-- The access kinds of a memory fault (00_scope.md R9). -/
inductive Access where
  | fetch
  | operand
  | read
  | write
  deriving DecidableEq, Repr

/-- The two ports (43_io_ports.md R74, R75). -/
inductive Port where
  | inp
  | out
  deriving DecidableEq, Repr

/-- A fault kind with its info (60_exceptions.md R95). -/
inductive FaultCause where
  /-- The cell that decodes to no instruction of the profile. -/
  | invalidOpcode (c : Int)
  /-- The address outside `[0, N)`, as an integer, and the access kind. -/
  | memoryFault (a : Int) (access : Access)
  /-- The port whose host answered with a failure. -/
  | portFailure (port : Port)
  /-- The exact result outside `Word`. -/
  | arithmeticOverflow (v : Int)
  deriving DecidableEq, Repr

/-- The fault record `(kind, info, fpc)` (R23). -/
structure FaultRecord where
  cause : FaultCause
  fpc   : Int
  deriving DecidableEq, Repr

/-- The engine state (R22). -/
inductive RunState where
  | running
  | halted
  | faulted
  deriving DecidableEq, Repr

/-- Whether a `run` command is in progress (R24). -/
inductive Cmd where
  | idle
  | active
  deriving DecidableEq, Repr

/-- The port transaction outstanding (R25). -/
inductive Pend where
  /-- An input request; `a` is the resolved destination address. -/
  | inp (a : Int)
  /-- An output request carrying `v`. -/
  | out (v : Int)
  deriving DecidableEq, Repr

/-- What `run` returns (40_cycle.md R62): success, or the contents of the fault field. -/
inductive RunResult where
  | success
  | fault (r : Option FaultRecord)
  deriving DecidableEq, Repr

/-- A transaction from the core to the host (43_io_ports.md R73). -/
inductive Sent where
  | inReq
  | outReq (v : Int)
  | runDone (result : RunResult)
  deriving DecidableEq, Repr

/-- What a host does on a channel once its script is done (43_io_ports.md R82). -/
inductive Rest (α : Type) where
  /-- The same move at every turn, for ever: `every .wait` is a host that does nothing more. -/
  | every (m : α)
  /-- A free move at every turn; the next one is free value number `n`. -/
  | free (n : Nat)
  deriving DecidableEq, Repr

/-- The host's moves on one channel, one a turn without end: first those of the script, then what `rest` says (log 4). -/
structure Channel (α : Type) where
  script : List α
  rest   : Rest α
  deriving DecidableEq, Repr

/-- The state of one machine.
`cfg` is its configuration, which no step changes (log 2).
`tape` to `rb` are the parts R15 names, and `N` is the length of `tape` (log 3).
That the cells, `rb` and the port values are words of the machine's width is the invariant `State.WordsFit` (log 1).
`hostRuns`, `hostIn` and `hostOut` are what the host will do (log 4): it may answer for ever, wait for ever, or do anything at all.
`sent` is what the core has sent, oldest first (log 5). -/
structure State where
  cfg      : Config
  tape     : List Int
  pc       : Int
  state    : RunState
  fault    : Option FaultRecord
  cmd      : Cmd
  pend     : Option Pend
  rb       : Int
  hostRuns : Channel RunMove
  hostIn   : Channel InMove
  hostOut  : Channel OutMove
  sent     : List Sent
  deriving DecidableEq, Repr

/-- The reasons a step could stop the model: there are none.
The spec's own faults are states the machine enters (60_exceptions.md R98; log 17), and its only endless waits are states in which nothing changes (R78; log 13). -/
inductive Fault where
  deriving DecidableEq, Repr

/-- The reasons the model could refuse an instruction. -/
inductive Refusal where
  /-- Raised by an arm of `exec` whose instruction has no meaning yet: none is left.
  Safe: the model stops where the hardware goes on. -/
  | notModelled (mnemonic : String)
  deriving DecidableEq, Repr

/-- `Construct(image)` (70_reset_and_hazards.md R109): every part at its value in 10_state.md R28.
The host gives words of the machine's width (log 1).
DESIGN CHOICE (log 4): every move of the host is free.
Nothing has been sent (log 5). -/
def State.construct (cfg : Config) (image : List Int) : State :=
  { cfg := cfg, tape := image, pc := 0, state := .running, fault := none, cmd := .idle, pend := none, rb := 0,
    hostRuns := ⟨[], .free 0⟩, hostIn := ⟨[], .free 0⟩, hostOut := ⟨[], .free 0⟩, sent := [] }

/-- The machine right after reset: constructed with this hardware's parameters and the empty image, a legal one (R19).
A program is given at construction, from outside the machine (log 12). -/
def State.reset : State := State.construct Config.normative []

end Sys2Proof.Machine
end

