-- ==== Sys2Proof/Machine/Ops.lean ====
section
/-! DEFINITION. The shared operations: tape access, fitting a result, taking a fault, advancing (00_scope.md R9 to R13). -/

namespace Sys2Proof.Machine

/-- What a step answers. -/
abbrev Result := Host.Outcome State Fault Refusal

/-! ### The tape (20_memory.md R29 to R37) -/

/-- `InRange(a)` on a tape of `n` cells, evaluated on integers (R10). -/
abbrev InRange (n : Nat) (a : Int) : Prop := 0 ≤ a ∧ a < n

/-- The tape has exactly the `n` cells it was constructed with (R19).
A list of cells has one form for each tape, so equal tapes are equal data. -/
abbrev Memory.wf (n : Nat) (t : List Int) : Prop := t.length = n

/-- The cell at an address, `none` outside the tape. -/
def Memory.read (t : List Int) (a : Int) : Option Int :=
  if InRange t.length a then t[a.toNat]? else none

/-- The tape with one cell replaced, `none` outside the tape. -/
def Memory.write (t : List Int) (a : Int) (v : Int) : Option (List Int) :=
  if InRange t.length a then some (t.set a.toNat v) else none

/-- `MemRead(a, 1)` for an access of the given kind (R9). -/
def State.memRead (s : State) (a : Int) (access : Access) : Except FaultCause Int :=
  match Memory.read s.tape a with
  | some v => .ok v
  | none => .error (.memoryFault a access)

/-- `MemWrite(a, 1, v)` (R9). -/
def State.memWrite (s : State) (a : Int) (v : Int) : Except FaultCause State :=
  match Memory.write s.tape a v with
  | some t => .ok { s with tape := t }
  | none => .error (.memoryFault a .write)

/-! ### Arithmetic -/

/-- `wrap_W(v)`: the one word congruent to `v` modulo `2^W` (R7). -/
def wrap (W : Nat) (v : Int) : Int := Int.bmod v (2 ^ W)

/-- `Fit(v)` (R13). -/
def State.fit (s : State) (v : Int) : Except FaultCause Int :=
  if InWord s.cfg.width v then .ok v
  else
    match s.cfg.overflow with
    | .wrap => .ok (wrap s.cfg.width v)
    | .fault => .error (.arithmeticOverflow v)

/-! ### Ending a cycle -/

/-- `raise F(info)` (R11; 60_exceptions.md R98): the record with the pc of the cycle, the terminal state, no outstanding transaction, and nothing else. -/
def State.raise (s : State) (c : FaultCause) : State :=
  { s with state := .faulted, fault := some ⟨c, s.pc⟩, pend := none }

/-- Ending a cycle that started in `s`: with the state it reached, or with the fault it raised and no other effect (40_cycle.md R58). -/
def State.commit (s : State) (r : Except FaultCause State) : Result :=
  match r with
  | .ok t => .next t
  | .error c => .next (s.raise c)

/-- `pc <- pc + len` (40_cycle.md R60). -/
def State.advance (s : State) (len : Nat) : State := { s with pc := s.pc + len }

/-- `pc <- v` (45_ext_profile.md R90; 10_state.md R20). -/
def State.jumpTo (s : State) (v : Int) : State := { s with pc := v }

/-- `rb <- v` (R94). -/
def State.setRb (s : State) (v : Int) : State := { s with rb := v }

/-- `state <- Halted` (42_halt.md R71). -/
def State.halt (s : State) : State := { s with state := .halted }

/-- Issuing a port request: it is outstanding, and it goes to the host (43_io_ports.md R78). -/
def State.issue (s : State) (p : Pend) (request : Sent) : State :=
  { s with pend := some p, sent := s.sent ++ [request] }

/-! ### The host's turns (43_io_ports.md R78, R82; log 4) -/

/-- The host's next move on a channel, and the channel after it; `draw` gives the free moves. -/
def Channel.turn {α : Type} (draw : Nat → α) (c : Channel α) : α × Channel α :=
  match c.script, c.rest with
  | m :: script, rest => (m, ⟨script, rest⟩)
  | [], .every m => (m, c)
  | [], .free n => (draw n, ⟨[], .free (n + 1)⟩)

/-- The move with its value a word of width `W` (R76). -/
def InMove.toWidth (W : Nat) : InMove → InMove
  | .wait => .wait
  | .value v => .value (wrap W v)
  | .fail => .fail

/-- The host's turn while `cmd` is Idle. -/
def State.runTurn (s : State) : RunMove × Channel RunMove := s.hostRuns.turn Config.runMove

/-- The host's turn on the input port: any word, a failure or a delay (R78). -/
def State.inTurn (s : State) : InMove × Channel InMove :=
  s.hostIn.turn fun n => (Config.inMove n).toWidth s.cfg.width

/-- The host's turn on the output port. -/
def State.outTurn (s : State) : OutMove × Channel OutMove := s.hostOut.turn Config.outMove

/-- Taking the host's turn while `cmd` is Idle. -/
def State.tookRun (s : State) (rest : Channel RunMove) : State := { s with hostRuns := rest }

/-- Taking the host's turn off the input channel. -/
def State.tookIn (s : State) (rest : Channel InMove) : State := { s with hostIn := rest }

/-- Taking the host's turn off the output channel. -/
def State.tookOut (s : State) (rest : Channel OutMove) : State := { s with hostOut := rest }

/-- `pend <- none`: the host has answered (R88, R89). -/
def State.answered (s : State) : State := { s with pend := none }

end Sys2Proof.Machine
end

