-- ==== Sys2Proof/Syntax.lean ====
section
/-! DEFINITION. The instructions: one constructor for each row of spec/opcode_table.json (30_encoding.md R49, 45_ext_profile.md R86). -/

namespace Sys2Proof

/-- The addressing modes of a read operand (R50, R85). -/
inductive RMode where
  | position
  | immediate
  | relative
  deriving DecidableEq, Repr

/-- The addressing modes of a write operand: never immediate (R49, R85). -/
inductive WMode where
  | position
  | relative
  deriving DecidableEq, Repr

/-- A read operand (kind `R`): its mode and its parameter cell. -/
structure ROperand where
  mode  : RMode
  param : Int
  deriving DecidableEq, Repr

/-- A write operand (kind `W`): its mode and its parameter cell. -/
structure WOperand where
  mode  : WMode
  param : Int
  deriving DecidableEq, Repr

/-- The instructions, in the order of spec/opcode_table.json. -/
inductive Instr where
  /-- ADD, R69. -/
  | add (a b : ROperand) (d : WOperand)
  /-- MUL, R70. -/
  | mul (a b : ROperand) (d : WOperand)
  /-- HALT, R71. -/
  | halt
  /-- IN, R88. -/
  | inp (d : WOperand)
  /-- OUT, R89. -/
  | out (a : ROperand)
  /-- JT, R90. -/
  | jt (a b : ROperand)
  /-- JF, R91. -/
  | jf (a b : ROperand)
  /-- LT, R92. -/
  | lt (a b : ROperand) (d : WOperand)
  /-- EQ, R93. -/
  | eq (a b : ROperand) (d : WOperand)
  /-- ARB, R94. -/
  | arb (a : ROperand)
  deriving DecidableEq, Repr

end Sys2Proof
end

