-- ==== Sys2Proof/Machine/Operands.lean ====
section
/-! DEFINITION. The addressing-mode resolver, and the two shapes that several instructions share (30_encoding.md R50, 45_ext_profile.md R85). -/

namespace Sys2Proof.Machine

/-- The address of a read operand, `none` where it is immediate; `rb + p` is an integer sum and never wraps (R85). -/
def State.readAddress (s : State) (o : ROperand) : Option Int :=
  match o.mode with
  | .position => some o.param
  | .immediate => none
  | .relative => some (s.rb + o.param)

/-- The value of a read operand (R50, R85). -/
def State.resolveRead (s : State) (o : ROperand) : Except FaultCause Int :=
  match s.readAddress o with
  | some a => s.memRead a .read
  | none => .ok o.param

/-- The address of a write operand; `rb + p` is an integer sum and never wraps (R85). -/
def State.writeAddress (s : State) (d : WOperand) : Int :=
  match d.mode with
  | .position => d.param
  | .relative => s.rb + d.param

/-- The destination of a write operand, range-checked and not read (R50, R85). -/
def State.resolveWrite (s : State) (d : WOperand) : Except FaultCause Int :=
  if InRange s.tape.length (s.writeAddress d) then .ok (s.writeAddress d)
  else .error (.memoryFault (s.writeAddress d) .write)

/-- The shape of ADD, MUL, LT and EQ: resolve the operands in order, compute, write one cell, advance (40_cycle.md R58; reads before the write, 20_memory.md R38). -/
def State.compute (s : State) (f : Int → Int → Except FaultCause Int) (a b : ROperand) (d : WOperand) : Result :=
  s.commit do
    let v0 ← s.resolveRead a
    let v1 ← s.resolveRead b
    let dest ← s.resolveWrite d
    let r ← f v0 v1
    let t ← s.memWrite dest r
    pure (t.advance 4)

/-- The shape of JT and JF: both operands are resolved even where the jump is not taken (R90). -/
def State.branch (s : State) (taken : Int → Bool) (a b : ROperand) : Result :=
  s.commit do
    let v0 ← s.resolveRead a
    let v1 ← s.resolveRead b
    pure (if taken v0 then s.jumpTo v1 else s.advance 3)

end Sys2Proof.Machine
end

