-- ==== Sys2Proof/Machine/Arith.lean ====
section
/-! DEFINITION. ADD and MUL (41_arithmetic.md). -/

namespace Sys2Proof.Machine

/-- ADD (R69): the exact sum through `Fit`. -/
def execAdd (a b : ROperand) (d : WOperand) (s : State) : Result :=
  s.compute (fun x y => s.fit (x + y)) a b d

/-- MUL (R70): the exact product through `Fit`. -/
def execMul (a b : ROperand) (d : WOperand) (s : State) : Result :=
  s.compute (fun x y => s.fit (x * y)) a b d

end Sys2Proof.Machine
end

