-- ==== Sys2Proof/Machine/BaseAdjust.lean ====
section
/-! DEFINITION. ARB (45_ext_profile.md R94). -/

namespace Sys2Proof.Machine

/-- ARB (R94): `rb <- Fit(rb + v)`; the operand is resolved with the old `rb`. -/
def execArb (a : ROperand) (s : State) : Result :=
  s.commit do
    let v ← s.resolveRead a
    let r ← s.fit (s.rb + v)
    pure ((s.setRb r).advance 2)

end Sys2Proof.Machine
end

