-- ==== Sys2Proof/Machine/Flags.lean ====
section
/-! DEFINITION. The core has no flags (10_state.md R21): a comparison writes a truth value to a cell, and a jump tests a value. -/

namespace Sys2Proof.Machine

/-- What a comparison writes: 1 for true, 0 for false (R92, R93). -/
def truthWord (b : Bool) : Int := if b then 1 else 0

/-- The condition of a jump: only exactly 0 is false (R90, R91). -/
def nonZero (v : Int) : Bool := decide (v ≠ 0)

/-- The signed comparison of LT (R92). -/
def lessThan (x y : Int) : Bool := decide (x < y)

/-- The comparison of EQ (R93). -/
def equals (x y : Int) : Bool := decide (x = y)

end Sys2Proof.Machine
end

