-- ==== Sys2Proof/Machine/Compare.lean ====
section
/-! DEFINITION. LT and EQ (45_ext_profile.md R92, R93). -/

namespace Sys2Proof.Machine

/-- LT (R92): write whether the first value is less, signed. -/
def execLt (a b : ROperand) (d : WOperand) (s : State) : Result :=
  s.compute (fun x y => .ok (truthWord (lessThan x y))) a b d

/-- EQ (R93): write whether the values are equal. -/
def execEq (a b : ROperand) (d : WOperand) (s : State) : Result :=
  s.compute (fun x y => .ok (truthWord (equals x y))) a b d

end Sys2Proof.Machine
end

