-- ==== Sys2Proof/Machine/Jump.lean ====
section
/-! DEFINITION. JT and JF (45_ext_profile.md R90, R91). -/

namespace Sys2Proof.Machine

/-- JT (R90): jump where the condition is not 0. -/
def execJt (a b : ROperand) (s : State) : Result := s.branch nonZero a b

/-- JF (R91): jump where the condition is 0. -/
def execJf (a b : ROperand) (s : State) : Result := s.branch (fun v => !nonZero v) a b

end Sys2Proof.Machine
end

