-- ==== Sys2Proof/Machine/PortOps.lean ====
section
/-! DEFINITION. IN and OUT, and the completion of their port transactions (43_io_ports.md R74 to R79, 45_ext_profile.md R88, R89). -/

namespace Sys2Proof.Machine

/-- The completion step of an input request with destination `a` (R88).
Without an answer the core stays held; a failed answer raises `PortFailure(IN)` (R79). -/
def State.completeIn (s : State) (a : Int) : Result :=
  match s.inTurn with
  | (.wait, rest) => .next (s.tookIn rest)
  | (.fail, rest) => .next ((s.tookIn rest).answered.raise (.portFailure .inp))
  | (.value v, rest) =>
    (s.tookIn rest).answered.commit do
      let t ← (s.tookIn rest).answered.memWrite a v
      pure (t.advance 2)

/-- The completion step of an output request (R89). -/
def State.completeOut (s : State) : Result :=
  match s.outTurn with
  | (.wait, rest) => .next (s.tookOut rest)
  | (.fail, rest) => .next ((s.tookOut rest).answered.raise (.portFailure .out))
  | (.ack, rest) => .next ((s.tookOut rest).answered.advance 2)

/-- The port phase of the outstanding transaction; the multiplexer routes it to its port (R77, R78). -/
def State.completePort (s : State) : Result :=
  match s.pend with
  | none => .next s
  | some (.inp a) => s.completeIn a
  | some (.out _) => s.completeOut

/-- IN (R88): the issue step, or, where its request is outstanding, the completion step (log 15). -/
def execIn (d : WOperand) (s : State) : Result :=
  match s.pend with
  | some _ => s.completePort
  | none =>
    s.commit do
      let a ← s.resolveWrite d
      pure (s.issue (.inp a) .inReq)

/-- OUT (R89): the issue step, or, where its request is outstanding, the completion step (log 15). -/
def execOut (a : ROperand) (s : State) : Result :=
  match s.pend with
  | some _ => s.completePort
  | none =>
    s.commit do
      let v ← s.resolveRead a
      pure (s.issue (.out v) (.outReq v))

end Sys2Proof.Machine
end

