-- ==== Sys2Proof/Machine/System.lean ====
section
/-! DEFINITION. HALT (42_halt.md). -/

namespace Sys2Proof.Machine

/-- HALT (R71): terminal success, the pc left at the HALT cell. -/
def execHalt (s : State) : Result := .next s.halt

end Sys2Proof.Machine
end

