-- ==== Sys2Proof/WellFormed.lean ====
section
/-! DEFINITION. Which instructions belong to a profile (30_encoding.md R51, R54; 45_ext_profile.md R86). -/

namespace Sys2Proof

/-- A read operand a profile allows: in BASE position mode only (R51). -/
def ROperand.wellFormed : Profile → ROperand → Bool
  | .base, o => decide (o.mode = .position)
  | .ext, _ => true

/-- A write operand a profile allows: in BASE position mode only (R51). -/
def WOperand.wellFormed : Profile → WOperand → Bool
  | .base, o => decide (o.mode = .position)
  | .ext, _ => true

/-- An instruction a profile allows: BASE has ADD, MUL and HALT (R54), EXT has all (R86). -/
def Instr.wellFormed (p : Profile) : Instr → Bool
  | .add a b d => a.wellFormed p && b.wellFormed p && d.wellFormed p
  | .mul a b d => a.wellFormed p && b.wellFormed p && d.wellFormed p
  | .halt => true
  | .inp _ => decide (p = .ext)
  | .out _ => decide (p = .ext)
  | .jt _ _ => decide (p = .ext)
  | .jf _ _ => decide (p = .ext)
  | .lt _ _ _ => decide (p = .ext)
  | .eq _ _ _ => decide (p = .ext)
  | .arb _ => decide (p = .ext)

end Sys2Proof
end

