-- ==== Sys2Proof/Decode.lean ====
section
/-! DEFINITION. The instruction decoder on cells, and after it the encoder (30_encoding.md R45 to R55, 45_ext_profile.md R85, R86).
The fields are decimal digits, not bits (90_conflicts.md C4). -/

namespace Sys2Proof

/-- Why a list of cells is no instruction.
The first three are `InvalidOpcode` of the cell (R55). -/
inductive Reject where
  /-- The instruction cell is negative (R46). -/
  | negativeCell
  /-- The low two digits are no opcode of the profile (R53). -/
  | unsupportedOpcode
  /-- A mode digit is not allowed for its operand, or a digit above the last operand is not 0 (R51, R85). -/
  | illegalMode
  /-- The list ends before the instruction does. -/
  | truncated
  deriving DecidableEq, Repr

/-- The opcodes of format F3 (R47). -/
inductive Op3 where
  | add
  | mul
  | lt
  | eq
  deriving DecidableEq, Repr

/-- The opcodes of format F2 (R47). -/
inductive Op2 where
  | jt
  | jf
  deriving DecidableEq, Repr

/-- The opcodes of format F1 whose operand is read (R47). -/
inductive Op1 where
  | out
  | arb
  deriving DecidableEq, Repr

/-- An opcode with its format and its operand kinds (R47, R49). -/
inductive Opcode where
  | f3 (op : Op3)
  | f2 (op : Op2)
  | f1 (op : Op1)
  | inp
  | halt
  deriving DecidableEq, Repr

/-- The opcode numbers (R49). -/
def Opcode.ofNat? : Nat → Option Opcode
  | 1 => some (.f3 .add)
  | 2 => some (.f3 .mul)
  | 3 => some .inp
  | 4 => some (.f1 .out)
  | 5 => some (.f2 .jt)
  | 6 => some (.f2 .jf)
  | 7 => some (.f3 .lt)
  | 8 => some (.f3 .eq)
  | 9 => some (.f1 .arb)
  | 99 => some .halt
  | _ => none

/-- `op ∈ Opcodes(PROFILE)`: the profile column of R49. -/
def Opcode.supported : Profile → Opcode → Bool
  | .ext, _ => true
  | .base, .f3 .add => true
  | .base, .f3 .mul => true
  | .base, .halt => true
  | .base, _ => false

/-- The decoded instruction cell: the opcode and the mode of each operand, before the parameter cells are read. -/
inductive Head where
  | f3 (op : Op3) (m0 m1 : RMode) (m2 : WMode)
  | f2 (op : Op2) (m0 m1 : RMode)
  | f1 (op : Op1) (m0 : RMode)
  | inp (m0 : WMode)
  | halt
  deriving DecidableEq, Repr

/-- `mode_i = ((c div 100) div 10^i) mod 10` (R45). -/
def modeDigit (n i : Nat) : Nat := n / 100 / 10 ^ i % 10

/-- `c div 10^(2+k)`: the digits above the last of `k` operands (R85). -/
def highDigits (n k : Nat) : Nat := n / 100 / 10 ^ k

/-- The mode of a read operand (R85). -/
def RMode.ofDigit? : Nat → Option RMode
  | 0 => some .position
  | 1 => some .immediate
  | 2 => some .relative
  | _ => none

/-- The mode of a write operand: digit 1 is refused (R85). -/
def WMode.ofDigit? : Nat → Option WMode
  | 0 => some .position
  | 2 => some .relative
  | _ => none

/-- The mode digits of a cell by R85, `none` where `ModesLegal(c, sig, EXT)` fails. -/
def Opcode.extHead? (n : Nat) : Opcode → Option Head
  | .f3 op =>
    match RMode.ofDigit? (modeDigit n 0), RMode.ofDigit? (modeDigit n 1), WMode.ofDigit? (modeDigit n 2) with
    | some m0, some m1, some m2 => if highDigits n 3 = 0 then some (.f3 op m0 m1 m2) else none
    | _, _, _ => none
  | .f2 op =>
    match RMode.ofDigit? (modeDigit n 0), RMode.ofDigit? (modeDigit n 1) with
    | some m0, some m1 => if highDigits n 2 = 0 then some (.f2 op m0 m1) else none
    | _, _ => none
  | .f1 op =>
    match RMode.ofDigit? (modeDigit n 0) with
    | some m0 => if highDigits n 1 = 0 then some (.f1 op m0) else none
    | none => none
  | .inp =>
    match WMode.ofDigit? (modeDigit n 0) with
    | some m0 => if highDigits n 1 = 0 then some (.inp m0) else none
    | none => none
  | .halt => if highDigits n 0 = 0 then some .halt else none

/-- `ModesLegal(c, sig, PROFILE)` (R51, R52): in BASE every mode digit is 0, in EXT R85 holds. -/
def Opcode.head? (p : Profile) (n : Nat) (op : Opcode) : Option Head :=
  match p with
  | .base => if n / 100 = 0 then op.extHead? n else none
  | .ext => op.extHead? n

/-- Decoding the instruction cell, its tests in the order of R53. -/
def decodeHead (p : Profile) (c : Int) : Except Reject Head :=
  if c < 0 then .error .negativeCell
  else
    match Opcode.ofNat? (c.toNat % 100) with
    | none => .error .unsupportedOpcode
    | some op =>
      if op.supported p then
        match op.head? p c.toNat with
        | none => .error .illegalMode
        | some h => .ok h
      else .error .unsupportedOpcode

/-- The instruction of an F3 opcode. -/
def Op3.instr (a b : ROperand) (d : WOperand) : Op3 → Instr
  | .add => .add a b d
  | .mul => .mul a b d
  | .lt => .lt a b d
  | .eq => .eq a b d

/-- The instruction of an F2 opcode. -/
def Op2.instr (a b : ROperand) : Op2 → Instr
  | .jt => .jt a b
  | .jf => .jf a b

/-- The instruction of an F1 opcode with a read operand. -/
def Op1.instr (a : ROperand) : Op1 → Instr
  | .out => .out a
  | .arb => .arb a

/-- Joining a decoded instruction cell with the parameter cells after it; the rest of the list is returned. -/
def Head.withParams : Head → List Int → Except Reject (Instr × List Int)
  | .f3 op m0 m1 m2, p0 :: p1 :: p2 :: rest => .ok (op.instr ⟨m0, p0⟩ ⟨m1, p1⟩ ⟨m2, p2⟩, rest)
  | .f2 op m0 m1, p0 :: p1 :: rest => .ok (op.instr ⟨m0, p0⟩ ⟨m1, p1⟩, rest)
  | .f1 op m0, p0 :: rest => .ok (op.instr ⟨m0, p0⟩, rest)
  | .inp m0, p0 :: rest => .ok (.inp ⟨m0, p0⟩, rest)
  | .halt, rest => .ok (.halt, rest)
  | _, _ => .error .truncated

/-- Decoding a list of cells: the instruction at its head, and the cells after it. -/
def decode (p : Profile) : List Int → Except Reject (Instr × List Int)
  | [] => .error .truncated
  | c :: cells =>
    match decodeHead p c with
    | .error r => .error r
    | .ok h => h.withParams cells

/-! ### The encoder -/

/-- The mode digit of a read operand (R85). -/
def RMode.digit : RMode → Nat
  | .position => 0
  | .immediate => 1
  | .relative => 2

/-- The mode digit of a write operand (R85). -/
def WMode.digit : WMode → Nat
  | .position => 0
  | .relative => 2

/-- The instruction cell `opcode + 100*m0 + 1000*m1 + 10000*m2` (R56). -/
def Instr.headCell : Instr → Nat
  | .add a b d => 1 + 100 * a.mode.digit + 1000 * b.mode.digit + 10000 * d.mode.digit
  | .mul a b d => 2 + 100 * a.mode.digit + 1000 * b.mode.digit + 10000 * d.mode.digit
  | .halt => 99
  | .inp d => 3 + 100 * d.mode.digit
  | .out a => 4 + 100 * a.mode.digit
  | .jt a b => 5 + 100 * a.mode.digit + 1000 * b.mode.digit
  | .jf a b => 6 + 100 * a.mode.digit + 1000 * b.mode.digit
  | .lt a b d => 7 + 100 * a.mode.digit + 1000 * b.mode.digit + 10000 * d.mode.digit
  | .eq a b d => 8 + 100 * a.mode.digit + 1000 * b.mode.digit + 10000 * d.mode.digit
  | .arb a => 9 + 100 * a.mode.digit

/-- The parameter cells in operand order (R47, R56). -/
def Instr.params : Instr → List Int
  | .add a b d => [a.param, b.param, d.param]
  | .mul a b d => [a.param, b.param, d.param]
  | .halt => []
  | .inp d => [d.param]
  | .out a => [a.param]
  | .jt a b => [a.param, b.param]
  | .jf a b => [a.param, b.param]
  | .lt a b d => [a.param, b.param, d.param]
  | .eq a b d => [a.param, b.param, d.param]
  | .arb a => [a.param]

/-- The cells of an instruction: its instruction cell, then its parameter cells (R45, R56). -/
def encode (i : Instr) : List Int := (i.headCell : Int) :: i.params

/-- The length in cells, `1 + n` (R47). -/
def Instr.length (i : Instr) : Nat := 1 + i.params.length

/-! ### The opcode table's words -/

/-- Cell `k` of a table word: 64 bits, the width of this hardware (00_scope.md R6), read as a signed word. -/
def tableCell (v k : Nat) : Int := (BitVec.ofNat 64 (v / 2 ^ (64 * k))).toInt

/-- The four cells (the longest instruction) that hold the bits of a table word.
Bit 0 is the least significant bit of the first cell and a later cell's bits count on from it; every bit from `nbits` on is 0. -/
def tableCells (nbits w : Nat) : List Int := (List.range 4).map (tableCell (w % 2 ^ nbits))

/-- The instruction the decoder reads from a table word.
The profile is EXT, whose map holds every row and reads the BASE cells as BASE does (R54, R86; log 18). -/
def decodeTableWord (nbits w : Nat) : Option Instr :=
  match decode .ext (tableCells nbits w) with
  | .ok (i, _) => some i
  | .error _ => none

end Sys2Proof
end

