-- ==== Sys2Proof/Machine/Fetch.lean ====
section
/-! DEFINITION. Fetching and decoding at the program counter, its faults in the order of 30_encoding.md R53. -/

namespace Sys2Proof.Machine

/-- The operand-cell fetch of a read operand, and its range check: that operand's faults come before the next cell's (R53, R97). -/
def State.fetchRead (s : State) (m : RMode) (a : Int) : Except FaultCause ROperand := do
  let p ← s.memRead a .operand
  let _ ← s.resolveRead ⟨m, p⟩
  pure ⟨m, p⟩

/-- The operand-cell fetch of a write operand, and its range check. -/
def State.fetchWrite (s : State) (m : WMode) (a : Int) : Except FaultCause WOperand := do
  let p ← s.memRead a .operand
  let _ ← s.resolveWrite ⟨m, p⟩
  pure ⟨m, p⟩

/-- The operands of a decoded instruction cell, in increasing order (R53). -/
def State.fetchOperands (s : State) : Head → Except FaultCause Instr
  | .f3 op m0 m1 m2 => do
    let a ← s.fetchRead m0 (s.pc + 1)
    let b ← s.fetchRead m1 (s.pc + 2)
    let d ← s.fetchWrite m2 (s.pc + 3)
    pure (op.instr a b d)
  | .f2 op m0 m1 => do
    let a ← s.fetchRead m0 (s.pc + 1)
    let b ← s.fetchRead m1 (s.pc + 2)
    pure (op.instr a b)
  | .f1 op m0 => do
    let a ← s.fetchRead m0 (s.pc + 1)
    pure (op.instr a)
  | .inp m0 => do
    let d ← s.fetchWrite m0 (s.pc + 1)
    pure (.inp d)
  | .halt => pure .halt

/-- `Decode(tape, pc, rb)` (R53): the instruction at the pc, or the first fault of its fetch. -/
def State.fetch (s : State) : Except FaultCause Instr := do
  let c ← s.memRead s.pc .fetch
  match decodeHead s.cfg.profile c with
  | .error _ => throw (.invalidOpcode c)
  | .ok h => s.fetchOperands h

/-! ### Placing an instruction -/

/-- A tape with the given cells from address `a` on, made longer with zero cells where it is too short. -/
def placeCells (t : List Int) (a : Nat) (cells : List Int) : List Int :=
  let t' := t ++ List.replicate (a + cells.length - t.length) 0
  t'.take a ++ cells ++ t'.drop (a + cells.length)

/-- The profile itself where its decoder accepts the cell, else EXT where that one does. -/
def profileFor (p : Profile) (c : Int) : Profile :=
  match decodeHead p c, decodeHead .ext c with
  | .ok _, _ => p
  | .error _, .ok _ => .ext
  | .error _, .error _ => p

/-- The address the pc names, 0 for a negative pc, which names none. -/
def State.fetchAddress (s : State) : Nat := s.pc.toNat

end Sys2Proof.Machine
end

