-- ==== Sys2Proof/Machine/HostView.lean ====
section
/-! DEFINITION. What the host can read at any time: the dump (43_io_ports.md R81) and the status block (10_state.md R26).
They are functions of the state, so reading them changes nothing. -/

namespace Sys2Proof.Machine

/-! ### The dump -/

/-- An integer in canonical decimal: `0`, no leading zeros, a leading `-` for a negative value (R81). -/
def decimal (v : Int) : List Char :=
  if v < 0 then '-' :: Nat.toDigits 10 v.natAbs else Nat.toDigits 10 v.natAbs

/-- The cells in order, separated by a comma and a space (R81). -/
def dumpCells : List Int → List Char
  | [] => []
  | [v] => decimal v
  | v :: rest => decimal v ++ [',', ' '] ++ dumpCells rest

/-- The characters of the dump (R81). -/
def State.dumpChars (s : State) : List Char := ['['] ++ dumpCells s.tape ++ [']']

/-- `Dump` (R81). -/
def State.dump (s : State) : String := String.ofList s.dumpChars

/-! ### The status block -/

/-- The fields of R26 with their widths; a `Word` field is `W` bits wide. -/
structure StatusBlock where
  state       : BitVec 2
  faultKind   : BitVec 3
  faultPc     : Int
  faultAddr   : Int
  faultAccess : BitVec 3
  faultCell   : Int
  deriving DecidableEq, Repr

/-- An integer in a `W`-bit signed field; a free value of that width where it does not fit (log 11). -/
def statusWord (W : Nat) (v : Int) : Int := if InWord W v then v else wrap W (Config.statusOutOfWord W v)

/-- STATE (R26). -/
def RunState.code : RunState → BitVec 2
  | .running => 0
  | .halted => 1
  | .faulted => 2

/-- FAULT_KIND (R26; 60_exceptions.md R95). -/
def FaultCause.kindCode : FaultCause → BitVec 3
  | .invalidOpcode _ => 1
  | .memoryFault _ _ => 2
  | .portFailure _ => 3
  | .arithmeticOverflow _ => 4

/-- FAULT_ADDR (R26). -/
def FaultCause.addrCode (W : Nat) : FaultCause → Int
  | .memoryFault a _ => statusWord W a
  | _ => 0

/-- FAULT_ACCESS (R26). -/
def FaultCause.accessCode : FaultCause → BitVec 3
  | .memoryFault _ .fetch => 0
  | .memoryFault _ .operand => 1
  | .memoryFault _ .read => 2
  | .memoryFault _ .write => 3
  | .portFailure .inp => 4
  | .portFailure .out => 5
  | _ => 0

/-- FAULT_CELL (R26). -/
def FaultCause.cellCode : FaultCause → Int
  | .invalidOpcode c => c
  | _ => 0

/-- `Status` (R26): a function of `state` and `fault`. -/
def State.statusBlock (s : State) : StatusBlock :=
  match s.fault with
  | none => ⟨s.state.code, 0, 0, 0, 0, 0⟩
  | some r => ⟨s.state.code, r.cause.kindCode, statusWord s.cfg.width r.fpc, r.cause.addrCode s.cfg.width, r.cause.accessCode,
      r.cause.cellCode⟩

end Sys2Proof.Machine
end

