-- ==== Sys2Proof/Machine/RunCommand.lean ====
section
/-! DEFINITION. The `run` command: its issue and its return (40_cycle.md R62, R63). -/

namespace Sys2Proof.Machine

/-- `RunDone(result)` (R62): success from Halted, the fault record from Faulted, nothing from Running. -/
def State.report (s : State) : State :=
  match s.state with
  | .running => s
  | .halted => { s with sent := s.sent ++ [.runDone .success] }
  | .faulted => { s with sent := s.sent ++ [.runDone (.fault s.fault)] }

/-- The host issues `Run`: from Running the command becomes active (R62).
On a terminal machine the result is returned at once and no cycle runs (R63, `RERUN_POLICY`; log 8). -/
def State.startRun (s : State) : State :=
  match s.state with
  | .running => { s with cmd := .active }
  | .halted | .faulted =>
    match s.cfg.rerun with
    | .noopReport => s.report

/-- The end of a run: `cmd <- Idle` and the result goes to the host (R62; log 6). -/
def State.finishRun (s : State) : State := { s with cmd := .idle }.report

/-- The host's turn while `cmd` is Idle: it waits, or issues `Run` (R82; log 13). -/
def State.hostTurn (s : State) : State :=
  match s.runTurn with
  | (.wait, rest) => s.tookRun rest
  | (.run, rest) => (s.tookRun rest).startRun

end Sys2Proof.Machine
end

