-- ==== Sys2Proof/Machine/Step.lean ====
section
/-! DEFINITION. One step: a cycle of the core, the completion of a port transaction, the return of a run, or a turn of the host (40_cycle.md R58, R62; 43_io_ports.md R83). -/

namespace Sys2Proof.Machine

/-- `Cycle()` (R58): fetch and decode at the pc, then the handler; a fault of the fetch ends the cycle. -/
def State.cycle (s : State) : Host.Outcome State Fault Refusal :=
  match s.fetch with
  | .ok i => exec i s
  | .error c => .next (s.raise c)

/-- One step.
A cycle is enabled only when `cmd` is Active, `state` is Running and `pend` is none (R58). -/
def step (s : State) : Host.Outcome State Fault Refusal :=
  match s.cmd, s.state, s.pend with
  | .active, .running, none => s.cycle
  | .active, .running, some _ => s.completePort
  | .active, .halted, _ => .next s.finishRun
  | .active, .faulted, _ => .next s.finishRun
  | .idle, _, _ => .next s.hostTurn

/-- `s` with the cells of a table word placed where `step` fetches, and a run in progress (log 12, log 18).
The profile becomes EXT only where the cell is no instruction of the present one. -/
def State.withFetchWord (s : State) (nbits w : Nat) : State :=
  { s with
    cfg := { s.cfg with profile := profileFor s.cfg.profile (tableCell (w % 2 ^ nbits) 0) }
    tape := placeCells s.tape s.fetchAddress (tableCells nbits w)
    pc := s.fetchAddress
    state := .running
    fault := none
    cmd := .active
    pend := none }

end Sys2Proof.Machine
end

