-- ==== Sys2Proof/Safety.lean ====
section
/-! DEFINITION. When a cycle is enabled, the invariant of the machine, and what counts as a safe run. -/

namespace Sys2Proof.Machine

/-- A cycle is enabled (40_cycle.md R58). -/
abbrev State.Enabled (s : State) : Prop := s.cmd = .active ∧ s.state = .running ∧ s.pend = none

/-- The core is held on a port (43_io_ports.md R78). -/
abbrev State.Held (s : State) : Prop := s.cmd = .active ∧ s.state = .running ∧ s.pend ≠ none

/-- Halted or Faulted (10_state.md R22). -/
abbrev State.Terminal (s : State) : Prop := s.state ≠ .running

/-- A fault record is held exactly in Faulted (R23). -/
abbrev State.FaultRecorded (s : State) : Prop := s.fault ≠ none ↔ s.state = .faulted

/-- An outstanding transaction belongs to the port instruction at the pc, and carries its resolved operand (R25, R78). -/
def State.PendMatches (s : State) : Prop :=
  match s.pend with
  | none => True
  | some (.inp a) => s.cmd = .active ∧ s.state = .running ∧ ∃ d, s.fetch = .ok (.inp d) ∧ s.resolveWrite d = .ok a
  | some (.out v) => s.cmd = .active ∧ s.state = .running ∧ ∃ o, s.fetch = .ok (.out o) ∧ s.resolveRead o = .ok v

/-- The pc stays within the values R20 gives it: at most `N` by an advance, any `Word` by a jump. -/
abbrev State.PcInRange (s : State) : Prop := (0 ≤ s.pc ∧ s.pc ≤ s.tape.length) ∨ InWord s.cfg.width s.pc

/-- A value the host answers with is a word (43_io_ports.md R78). -/
abbrev InMove.Fits (W : Nat) : InMove → Prop
  | .value v => InWord W v
  | .wait => True
  | .fail => True

/-- Every value of an input channel is a word: the script's, and the one the host repeats; a free value is one (`State.inTurn`). -/
structure Channel.Fits (W : Nat) (c : Channel InMove) : Prop where
  script : ∀ m ∈ c.script, m.Fits W
  every  : ∀ m, c.rest = .every m → m.Fits W

/-- An outstanding output request carries a word (R25). -/
abbrev Pend.Fits (W : Nat) : Pend → Prop
  | .out v => InWord W v
  | .inp _ => True

/-- The machine's width is 2 at least, so that 0 and 1 are words, and every cell, `rb` and every port value is a word of that width (R18, R84, 43_io_ports.md R76). -/
structure State.WordsFit (s : State) : Prop where
  width  : 2 ≤ s.cfg.width
  tape   : ∀ v ∈ s.tape, InWord s.cfg.width v
  rb     : InWord s.cfg.width s.rb
  pend   : ∀ p, s.pend = some p → p.Fits s.cfg.width
  hostIn : s.hostIn.Fits s.cfg.width

/-- In BASE no port transaction is outstanding, `rb` is unused, and the pc never leaves `[0, N]` (R25, R84, R20). -/
abbrev State.BaseClean (s : State) : Prop :=
  s.cfg.profile = .base → s.pend = none ∧ s.rb = 0 ∧ 0 ≤ s.pc ∧ s.pc ≤ s.tape.length

/-- The invariant of the machine: it holds after construction, and every step keeps it. -/
structure State.Inv (s : State) : Prop where
  faultRecorded : s.FaultRecorded
  pendMatches : s.PendMatches
  pcInRange : s.PcInRange
  baseClean : s.BaseClean
  wordsFit : s.WordsFit

/-- A safe run of `k` steps: no state on the way is Faulted. -/
def State.SafeFor (s : State) (k : Nat) : Prop :=
  ∀ j, j ≤ k → ∀ t, Sys2Proof.core.run j s = .next t → t.state ≠ .faulted

end Sys2Proof.Machine
end

