-- ==== Sys2Proof/Certificates/Slice0/Obligations.lean ====
section
/-! DEFINITION. The statements for the provers. -/

namespace Sys2Proof.Claims

open Sys2Proof Sys2Proof.Machine

/-! ### The spec's tables, as the statements read them -/

/-- The operand kinds of R49. -/
inductive Kind where
  | r
  | w
  deriving DecidableEq, Repr

/-- The signature of an opcode of profile EXT (R49, R86). -/
def signature : Nat → Option (List Kind)
  | 1 => some [.r, .r, .w]
  | 2 => some [.r, .r, .w]
  | 3 => some [.w]
  | 4 => some [.r]
  | 5 => some [.r, .r]
  | 6 => some [.r, .r]
  | 7 => some [.r, .r, .w]
  | 8 => some [.r, .r, .w]
  | 9 => some [.r]
  | 99 => some []
  | _ => none

/-- `d_k(n)` (R7). -/
def digit (k n : Nat) : Nat := n / 10 ^ k % 10

/-- `ModesLegal(c, sig, EXT)` in R85's own three conditions. -/
def ModesLegal (n : Nat) (sig : List Kind) : Prop :=
  (∀ i, i < sig.length → digit (2 + i) n ≤ 2) ∧
  (∀ i, sig[i]? = some Kind.w → digit (2 + i) n ≠ 1) ∧
  n / 10 ^ (2 + sig.length) = 0

/-! ### The operand checks of Decode, in the order of R53 and R97 -/

/-- The parameter cell of operand `i - 1`, where there is one. -/
def param (s : State) (i : Nat) : Int := (Memory.read s.tape (s.pc + i)).getD 0

/-- The check of an operand cell. -/
def cellCheck (s : State) (i : Nat) : Bool × FaultCause :=
  (decide (InRange s.tape.length (s.pc + i)), .memoryFault (s.pc + i) .operand)

/-- The check of an address, of the given access kind. -/
def addressCheck (s : State) (a : Int) (access : Access) : Bool × FaultCause :=
  (decide (InRange s.tape.length a), .memoryFault a access)

/-- The check of a read operand. -/
def readCheck (s : State) (m : RMode) (i : Nat) : List (Bool × FaultCause) :=
  match m with
  | .position => [addressCheck s (param s i) .read]
  | .immediate => []
  | .relative => [addressCheck s (s.rb + (param s i)) .read]

/-- The check of a write operand. -/
def writeCheck (s : State) (m : WMode) (i : Nat) : List (Bool × FaultCause) :=
  match m with
  | .position => [addressCheck s (param s i) .write]
  | .relative => [addressCheck s (s.rb + (param s i)) .write]

/-- All checks of the operands, in order. -/
def operandChecks (s : State) : Head → List (Bool × FaultCause)
  | .f3 _ m0 m1 m2 =>
    [cellCheck s 1] ++ readCheck s m0 1 ++ [cellCheck s 2] ++ readCheck s m1 2 ++ [cellCheck s 3] ++ writeCheck s m2 3
  | .f2 _ m0 m1 => [cellCheck s 1] ++ readCheck s m0 1 ++ [cellCheck s 2] ++ readCheck s m1 2
  | .f1 _ m0 => [cellCheck s 1] ++ readCheck s m0 1
  | .inp m0 => [cellCheck s 1] ++ writeCheck s m0 1
  | .halt => []

/-- The fault of the first check that fails. -/
def firstFailing : List (Bool × FaultCause) → Option FaultCause
  | [] => none
  | (passes, f) :: rest => if passes then firstFailing rest else some f

/-- No operand of the instruction is in relative mode. -/
def noRelative : Instr → Prop
  | .add a b d => a.mode ≠ .relative ∧ b.mode ≠ .relative ∧ d.mode ≠ .relative
  | .mul a b d => a.mode ≠ .relative ∧ b.mode ≠ .relative ∧ d.mode ≠ .relative
  | .halt => True
  | .inp d => d.mode ≠ .relative
  | .out a => a.mode ≠ .relative
  | .jt a b => a.mode ≠ .relative ∧ b.mode ≠ .relative
  | .jf a b => a.mode ≠ .relative ∧ b.mode ≠ .relative
  | .lt a b d => a.mode ≠ .relative ∧ b.mode ≠ .relative ∧ d.mode ≠ .relative
  | .eq a b d => a.mode ≠ .relative ∧ b.mode ≠ .relative ∧ d.mode ≠ .relative
  | .arb a => a.mode ≠ .relative

/-- The instruction computes from two values and stores to `d`. -/
def Stores (i : Instr) (a b : ROperand) (d : WOperand) : Prop :=
  i = .add a b d ∨ i = .mul a b d ∨ i = .lt a b d ∨ i = .eq a b d

/-- `r` is what `Fit(v)` returns (R13): `v` where it is a word, else under `wrap` the word congruent to it. -/
def Fitted (c : Config) (v r : Int) : Prop :=
  InWord c.width r ∧
  (InWord c.width v → r = v) ∧ (¬ InWord c.width v → c.overflow = .wrap ∧ 1 ≤ c.width ∧ (r - v) % 2 ^ c.width = 0)

/-- What the instruction stores for two operand values, where it does not overflow (R69, R70, R92, R93). -/
def Computes (c : Config) (v0 v1 r : Int) : Instr → Prop
  | .add _ _ _ => Fitted c (v0 + v1) r
  | .mul _ _ _ => Fitted c (v0 * v1) r
  | .lt _ _ _ => r = if v0 < v1 then 1 else 0
  | .eq _ _ _ => r = if v0 = v1 then 1 else 0
  | _ => False

/-- The cell the pc of `t` points to holds `r`, and the next step decodes it: it runs the instruction `r` begins, or raises InvalidOpcode of `r`. -/
def FetchesNext (t : State) (r : Int) : Prop :=
  Memory.read t.tape t.pc = some r ∧
  (∀ e, decodeHead t.cfg.profile r = .error e → step t = .next (t.raise (.invalidOpcode r))) ∧
  (∀ j rest, decode t.cfg.profile (r :: t.tape.drop (t.pc.toNat + 1)) = .ok (j, rest) → step t = exec j t)

/-- The characters are the digits of `n` without a leading zero, most significant first. -/
def DigitsOf (n : Nat) (cs : List Char) : Prop :=
  cs ≠ [] ∧ cs.head? ≠ some '0' ∧ (∀ c ∈ cs, c.isDigit = true) ∧
  cs.foldl (fun m c => 10 * m + (c.toNat - '0'.toNat)) 0 = n

/-- The canonical decimal of R81: `0`, or digits without a leading zero, after a `-` for a negative value. -/
def Canonical (v : Int) (cs : List Char) : Prop :=
  (v = 0 → cs = ['0']) ∧ (0 < v → DigitsOf v.natAbs cs) ∧ (v < 0 → ∃ ds, cs = '-' :: ds ∧ DigitsOf v.natAbs ds)

end Sys2Proof.Claims

open Sys2Proof Sys2Proof.Machine

/-! ### Encoding -/

/-- Decoding an encoded instruction of a profile gives it back, with the cells after it (R45, R47, R56). -/
def Obligations.EncodeThenDecode : Prop :=
  ∀ (p : Profile) (i : Instr) (rest : List Int),
    i.wellFormed p = true → decode p (encode i ++ rest) = .ok (i, rest)

/-- What decodes is an instruction of the profile, and the cells read are its encoding: each instruction has one encoding. -/
def Obligations.DecodeThenEncode : Prop :=
  ∀ (p : Profile) (cells rest : List Int) (i : Instr),
    decode p cells = .ok (i, rest) → i.wellFormed p = true ∧ cells = encode i ++ rest

/-- R51: the cells that decode in BASE are 1, 2 and 99, and every other cell raises InvalidOpcode when it is fetched. -/
def Obligations.BaseAcceptsThreeCells : Prop :=
  (∀ c : Int, (∃ h, decodeHead .base c = .ok h) ↔ c = 1 ∨ c = 2 ∨ c = 99) ∧
  (∀ (s : State) (c : Int), s.Enabled → s.cfg.profile = .base → Memory.read s.tape s.pc = some c →
    c ≠ 1 → c ≠ 2 → c ≠ 99 → step s = .next (s.raise (.invalidOpcode c)))

/-- R85, R86: an EXT cell decodes exactly if it is not negative, its opcode is in the table and its modes are legal. -/
def Obligations.ExtAcceptsLegalModes : Prop :=
  ∀ c : Int, (∃ h, decodeHead .ext c = .ok h) ↔
    0 ≤ c ∧ ∃ sig, Claims.signature (c.toNat % 100) = some sig ∧ Claims.ModesLegal c.toNat sig

/-- R46: a negative cell is no instruction, in either profile, and raises InvalidOpcode. -/
def Obligations.NegativeCellIsInvalid : Prop :=
  (∀ (p : Profile) (c : Int) (cells : List Int), c < 0 → ∃ r, decode p (c :: cells) = .error r) ∧
  (∀ (s : State) (c : Int), s.Enabled → Memory.read s.tape s.pc = some c → c < 0 →
    step s = .next (s.raise (.invalidOpcode c)))

/-- R55: a cycle raises InvalidOpcode of the fetched cell exactly if the decoder rejects that cell; the tape is as before. -/
def Obligations.InvalidOpcodeExactlyOnRejectedCell : Prop :=
  ∀ (s : State) (c : Int), s.Enabled → Memory.read s.tape s.pc = some c →
    ((∃ r, decodeHead s.cfg.profile c = .error r) ↔
      ∃ t, step s = .next t ∧ t.fault = some ⟨.invalidOpcode c, s.pc⟩ ∧ t.state = .faulted ∧ t.tape = s.tape)

/-- R48: the length of an instruction follows from the low two digits of its cell. -/
def Obligations.LengthFromOpcode : Prop :=
  ∀ (p q : Profile) (c c' : Int) (cells cells' rest rest' : List Int) (i j : Instr),
    decode p (c :: cells) = .ok (i, rest) → decode q (c' :: cells') = .ok (j, rest') →
    c % 100 = c' % 100 →
    i.length = j.length ∧ (c :: cells).length = i.length + rest.length

/-- Words written out from 30_encoding.md R45 and 45_ext_profile.md R85 decode to the instructions they stand for. -/
def Obligations.SampleWordsDecode : Prop :=
  decode .base [1, 5, 6, 7] = .ok (.add ⟨.position, 5⟩ ⟨.position, 6⟩ ⟨.position, 7⟩, []) ∧
  decode .ext [21102, 5, 6, 7] = .ok (.mul ⟨.immediate, 5⟩ ⟨.immediate, 6⟩ ⟨.relative, 7⟩, []) ∧
  decode .ext [203, 1] = .ok (.inp ⟨.relative, 1⟩, []) ∧
  decode .ext [2106, 1, 4] = .ok (.jf ⟨.immediate, 1⟩ ⟨.relative, 4⟩, []) ∧
  decode .ext [109, 8] = .ok (.arb ⟨.immediate, 8⟩, []) ∧
  decode .base [99] = .ok (.halt, [])

/-! ### Fetch and the step -/

/-- When a cycle is enabled and the cells at the pc decode to an instruction, the step is that instruction's meaning. -/
def Obligations.StepRunsDecodedInstr : Prop :=
  ∀ (s : State) (i : Instr) (rest : List Int),
    s.Enabled → 0 ≤ s.pc → decode s.cfg.profile (s.tape.drop s.pc.toNat) = .ok (i, rest) → step s = exec i s

/-- While the core is held on a port, the step is the port phase of the port instruction at the pc (R78).
That exec of the instruction is that phase is the model's choice (log 15). -/
def Obligations.HeldStepRunsPortInstr : Prop :=
  ∀ s : State, s.Inv → s.Held →
    ∃ i, s.fetch = .ok i ∧ ((∃ d, i = .inp d) ∨ ∃ a, i = .out a) ∧ step s = exec i s

/-- R57: a cycle begins with the cell at the pc.
Outside the tape, an empty tape's every address included, it raises MemoryFault(pc, FETCH), and nothing else of the cycle happens. -/
def Obligations.FetchOutsideTapeFaults : Prop :=
  ∀ s : State, s.Enabled →
    (¬ InRange s.tape.length s.pc →
      step s = .next { s with state := .faulted, fault := some ⟨.memoryFault s.pc .fetch, s.pc⟩, pend := none }) ∧
    (InRange s.tape.length s.pc → ∃ c, Memory.read s.tape s.pc = some c ∧
      (∀ r, decodeHead s.cfg.profile c = .error r → step s = .next (s.raise (.invalidOpcode c))) ∧
      (∀ h, decodeHead s.cfg.profile c = .ok h → s.fetch = s.fetchOperands h))

/-- R53, R97: after the instruction cell, the first failing check names the fault: each operand's cell, then its address, in operand order.
Where none fails, the cycle runs the instruction.
The order is the spec's choice (D5; log 21). -/
def Obligations.FirstFailingCheckNamesFault : Prop :=
  ∀ (s : State) (c : Int) (h : Head),
    s.Enabled → Memory.read s.tape s.pc = some c → decodeHead s.cfg.profile c = .ok h →
    (∀ f, Claims.firstFailing (Claims.operandChecks s h) = some f → step s = .next (s.raise f)) ∧
    (Claims.firstFailing (Claims.operandChecks s h) = none → ∃ i, s.fetch = .ok i ∧ step s = exec i s)

/-- R50, R85: the three modes of a read operand and the two of a write operand.
A relative address is the integer sum and never wraps. -/
def Obligations.OperandModes : Prop :=
  ∀ (s : State) (p : Int),
    s.resolveRead ⟨.immediate, p⟩ = .ok p ∧
    (∀ v, Memory.read s.tape p = some v → s.resolveRead ⟨.position, p⟩ = .ok v) ∧
    (∀ v, Memory.read s.tape (s.rb + p) = some v → s.resolveRead ⟨.relative, p⟩ = .ok v) ∧
    (¬ InRange s.tape.length p → s.resolveRead ⟨.position, p⟩ = .error (.memoryFault p .read)) ∧
    (¬ InRange s.tape.length (s.rb + p) →
      s.resolveRead ⟨.relative, p⟩ = .error (.memoryFault (s.rb + p) .read)) ∧
    (InRange s.tape.length p → s.resolveWrite ⟨.position, p⟩ = .ok p) ∧
    (InRange s.tape.length (s.rb + p) →
      s.resolveWrite ⟨.relative, p⟩ = .ok (s.rb + p)) ∧
    (¬ InRange s.tape.length p → s.resolveWrite ⟨.position, p⟩ = .error (.memoryFault p .write)) ∧
    (¬ InRange s.tape.length (s.rb + p) →
      s.resolveWrite ⟨.relative, p⟩ = .error (.memoryFault (s.rb + p) .write))

/-! ### The tape -/

/-- R7, R13: `Fit` returns a word wherever it returns; where the exact value is one, that value, and else under `wrap` the one word congruent to it modulo `2^W`. -/
def Obligations.FitReturnsWord : Prop :=
  ∀ (s : State) (v : Int),
    (InWord s.cfg.width v → s.fit v = .ok v) ∧
    (¬ InWord s.cfg.width v → s.cfg.overflow = .fault → s.fit v = .error (.arithmeticOverflow v)) ∧
    (¬ InWord s.cfg.width v → s.cfg.overflow = .wrap → 1 ≤ s.cfg.width →
      ∃ r, s.fit v = .ok r ∧ InWord s.cfg.width r ∧ (r - v) % 2 ^ s.cfg.width = 0 ∧
        ∀ r', InWord s.cfg.width r' → (r' - v) % 2 ^ s.cfg.width = 0 → r' = r)

/-- R32, R9: an access outside `[0, N)` raises MemoryFault with its address and kind; one inside does not fault. -/
def Obligations.AccessFaultsExactlyOutsideTape : Prop :=
  ∀ (s : State) (a : Int) (v : Int) (access : Access),
    (¬ InRange s.tape.length a →
      s.memRead a access = .error (.memoryFault a access) ∧ s.memWrite a v = .error (.memoryFault a .write)) ∧
    (InRange s.tape.length a →
      (∃ w, s.memRead a access = .ok w) ∧ ∃ t, s.memWrite a v = .ok t ∧ Memory.wf s.tape.length t.tape)

/-- R33, R37: a write leaves its value in its cell and every other cell alone. -/
def Obligations.ReadAfterWrite : Prop :=
  ∀ (t t' : List Int) (a : Int) (v : Int), Memory.write t a v = some t' →
    Memory.read t' a = some v ∧ ∀ b, b ≠ a → Memory.read t' b = Memory.read t b

/-- R19: `N` is set at construction and no step changes it, nor the configuration; on the empty tape every fetch faults. -/
def Obligations.TapeLengthIsFixed : Prop :=
  (∀ (cfg : Config) (image : List Int), (State.construct cfg image).tape.length = image.length) ∧
  (∀ s t : State, step s = .next t → Memory.wf s.tape.length t.tape ∧ t.cfg = s.cfg) ∧
  (∀ s : State, s.Enabled → s.tape = [] → step s = .next (s.raise (.memoryFault s.pc .fetch)))

/-- R42: a value stored in the cell the pc moves to is the cell the next step fetches, whether it decodes or not: the result of ADD, MUL, LT or EQ, a wrapped one included, and the value IN is given. -/
def Obligations.StoredCellIsFetchedNext : Prop :=
  (∀ (i : Instr) (s : State) (a b : ROperand) (d : WOperand) (v0 v1 r : Int),
    Claims.Stores i a b d → s.Enabled → s.fetch = .ok i → s.resolveRead a = .ok v0 → s.resolveRead b = .ok v1 →
    s.resolveWrite d = .ok (s.pc + 4) → Claims.Computes s.cfg v0 v1 r i →
    ∃ t, step s = .next t ∧ t.pc = s.pc + 4 ∧ Claims.FetchesNext t r) ∧
  (∀ (s : State) (v : Int) (rest : Channel InMove),
    s.Held → s.pend = some (.inp (s.pc + 2)) → InRange s.tape.length (s.pc + 2) → s.inTurn = (.value v, rest) →
    ∃ t, step s = .next t ∧ t.pc = s.pc + 2 ∧ Claims.FetchesNext t v)

/-! ### The instructions -/

/-- R67: ADD and MUL write the exact result where it is a word; outside, they raise ArithmeticOverflow with no write, or write the word congruent to it. -/
def Obligations.ArithThroughFit : Prop :=
  ∀ (s : State) (a b : ROperand) (d : WOperand) (v0 v1 : Int) (x r : Int) (i : Instr),
    s.resolveRead a = .ok v0 → s.resolveRead b = .ok v1 → s.resolveWrite d = .ok x →
    (i = .add a b d ∧ r = v0 + v1 ∨ i = .mul a b d ∧ r = v0 * v1) →
    (InWord s.cfg.width r → exec i s = .next { s with tape := s.tape.set x.toNat r, pc := s.pc + 4 }) ∧
    (¬ InWord s.cfg.width r → s.cfg.overflow = .fault → exec i s = .next (s.raise (.arithmeticOverflow r))) ∧
    (¬ InWord s.cfg.width r → s.cfg.overflow = .wrap → ∃ w : Int, InWord s.cfg.width w ∧ (w - r) % 2 ^ s.cfg.width = 0 ∧
      exec i s = .next { s with tape := s.tape.set x.toNat w, pc := s.pc + 4 })

/-- R97: ADD, MUL, LT and EQ raise the fault of their first operand that does not resolve, before they compute.
The order is the spec's choice (D5; log 21), and so is that a fault has no other effect (D19; log 9). -/
def Obligations.OperandFaultComesFirst : Prop :=
  ∀ (i : Instr) (s : State) (a b : ROperand) (d : WOperand) (c : FaultCause), Claims.Stores i a b d →
    (s.resolveRead a = .error c ∨
      (∃ v0, s.resolveRead a = .ok v0 ∧ s.resolveRead b = .error c) ∨
      (∃ v0 v1, s.resolveRead a = .ok v0 ∧ s.resolveRead b = .ok v1 ∧ s.resolveWrite d = .error c)) →
    exec i s = .next (s.raise c)

/-- R71: HALT makes the state Halted and leaves the pc and all else; no later cycle runs; a cell that only ends in 99 is no HALT.
That the pc stays is the spec's choice of two readings (D7; log 7). -/
def Obligations.HaltStopsInPlace : Prop :=
  (∀ s : State, exec .halt s = .next { s with state := .halted }) ∧
  (∀ s : State, s.Enabled → Memory.read s.tape s.pc = some 99 → step s = .next { s with state := .halted }) ∧
  (∀ s t : State, step { s with state := .halted } = .next t → t.state = .halted ∧ t.tape = s.tape ∧ t.pc = s.pc) ∧
  (∀ (s : State) (c : Int), s.Enabled → Memory.read s.tape s.pc = some c → c % 100 = 99 → c ≠ 99 →
    step s = .next (s.raise (.invalidOpcode c))) ∧
  (∀ s : State, s.Enabled → ¬ InRange s.tape.length s.pc → step s = .next (s.raise (.memoryFault s.pc .fetch)))

/-- R88: IN issues its request after its operand is resolved; a value is written and the pc advances; a failure raises PortFailure(IN) with no write.
That no request is sent where the operand does not resolve is the spec's choice (D23; log 10), and that a fault has no other effect is D19 (log 9). -/
def Obligations.InIssuesThenCompletes : Prop :=
  ∀ (s : State) (d : WOperand),
    (∀ a, s.pend = none → s.resolveWrite d = .ok a →
      exec (.inp d) s = .next { s with pend := some (.inp a), sent := s.sent ++ [.inReq] }) ∧
    (∀ c, s.pend = none → s.resolveWrite d = .error c → exec (.inp d) s = .next (s.raise c)) ∧
    (∀ a v rest, s.pend = some (.inp a) → InRange s.tape.length a → s.inTurn = (.value v, rest) →
      exec (.inp d) s =
        .next { s with tape := s.tape.set a.toNat v, pc := s.pc + 2, pend := none, hostIn := rest }) ∧
    (∀ a rest, s.pend = some (.inp a) → s.inTurn = (.fail, rest) →
      exec (.inp d) s = .next { s with state := .faulted, fault := some ⟨.portFailure .inp, s.pc⟩, pend := none, hostIn := rest })

/-- R89: OUT issues its request with its operand's value; an acknowledgement advances the pc; a failure raises PortFailure(OUT).
That a fault has no other effect is the spec's choice (D19; log 9). -/
def Obligations.OutIssuesThenCompletes : Prop :=
  ∀ (s : State) (o : ROperand),
    (∀ v, s.pend = none → s.resolveRead o = .ok v →
      exec (.out o) s = .next { s with pend := some (.out v), sent := s.sent ++ [.outReq v] }) ∧
    (∀ c, s.pend = none → s.resolveRead o = .error c → exec (.out o) s = .next (s.raise c)) ∧
    (∀ v rest, s.pend = some (.out v) → s.outTurn = (.ack, rest) →
      exec (.out o) s = .next { s with pc := s.pc + 2, pend := none, hostOut := rest }) ∧
    (∀ v rest, s.pend = some (.out v) → s.outTurn = (.fail, rest) →
      exec (.out o) s = .next { s with state := .faulted, fault := some ⟨.portFailure .out, s.pc⟩, pend := none, hostOut := rest })

/-- R90, R91: JT jumps where the condition is not 0 and JF where it is 0; otherwise the pc advances by 3.
Their only faults are the operands'; a target outside the tape faults at the next fetch.
That a fault has no other effect is the spec's choice (D19; log 9). -/
def Obligations.JumpsTakeTarget : Prop :=
  ∀ (s : State) (a b : ROperand),
    (∀ v0 v1, s.resolveRead a = .ok v0 → s.resolveRead b = .ok v1 →
      (v0 ≠ 0 → exec (.jt a b) s = .next { s with pc := v1 } ∧
        exec (.jf a b) s = .next { s with pc := s.pc + 3 }) ∧
      (v0 = 0 → exec (.jt a b) s = .next { s with pc := s.pc + 3 } ∧
        exec (.jf a b) s = .next { s with pc := v1 }) ∧
      (s.Enabled → ¬ InRange s.tape.length v1 →
        step { s with pc := v1 } = .next ({ s with pc := v1 }.raise (.memoryFault v1 .fetch)))) ∧
    (∀ c, s.resolveRead a = .error c → exec (.jt a b) s = .next (s.raise c) ∧ exec (.jf a b) s = .next (s.raise c)) ∧
    (∀ v0 c, s.resolveRead a = .ok v0 → s.resolveRead b = .error c →
      exec (.jt a b) s = .next (s.raise c) ∧ exec (.jf a b) s = .next (s.raise c))

/-- R92, R93: LT and EQ write 1 or 0, and compare signed values. -/
def Obligations.ComparisonsWriteTruth : Prop :=
  ∀ (s : State) (a b : ROperand) (d : WOperand) (v0 v1 : Int) (x : Int),
    s.resolveRead a = .ok v0 → s.resolveRead b = .ok v1 → s.resolveWrite d = .ok x →
    exec (.lt a b d) s =
      .next { s with tape := s.tape.set x.toNat (if v0 < v1 then 1 else 0), pc := s.pc + 4 } ∧
    exec (.eq a b d) s =
      .next { s with tape := s.tape.set x.toNat (if v0 = v1 then 1 else 0), pc := s.pc + 4 }

/-- R94: ARB adds its operand, resolved with the old base, to the relative base, through Fit.
That a fault has no other effect is the spec's choice (D19; log 9). -/
def Obligations.ArbAdjustsBase : Prop :=
  ∀ (s : State) (o : ROperand),
    (∀ c, s.resolveRead o = .error c → exec (.arb o) s = .next (s.raise c)) ∧
    (∀ v, s.resolveRead o = .ok v →
      (InWord s.cfg.width (s.rb + v) → exec (.arb o) s = .next { s with rb := s.rb + v, pc := s.pc + 2 }) ∧
      (¬ InWord s.cfg.width (s.rb + v) → s.cfg.overflow = .fault →
        exec (.arb o) s = .next (s.raise (.arithmeticOverflow (s.rb + v)))) ∧
      (¬ InWord s.cfg.width (s.rb + v) → s.cfg.overflow = .wrap →
        ∃ w : Int, InWord s.cfg.width w ∧ (w - (s.rb + v)) % 2 ^ s.cfg.width = 0 ∧
          exec (.arb o) s = .next { s with rb := w, pc := s.pc + 2 }))

/-- R60: an instruction that neither jumps nor halts and completes without a fault moves the pc by its length, 4 for ADD and MUL.
The new pc is not range-checked until the next fetch. -/
def Obligations.PcMovesByLength : Prop :=
  (∀ (i : Instr) (s t : State),
    i ≠ .halt → (∀ a b, i ≠ .jt a b) → (∀ a b, i ≠ .jf a b) →
    exec i s = .next t → t.state = .running → t.pend = none →
    t.pc = s.pc + i.length ∧ t.fault = s.fault ∧
      (t.cmd = .active → ¬ InRange t.tape.length t.pc → step t = .next (t.raise (.memoryFault t.pc .fetch)))) ∧
  (∀ a b d, (Instr.add a b d).length = 4 ∧ (Instr.mul a b d).length = 4)

/-! ### Frames -/

/-- ADD, MUL, LT and EQ: either they fault, with nothing changed but the fault entry, or they change the pc and the one cell their destination operand resolves to.
That a fault has no other effect is the spec's choice (D19; log 9). -/
def Obligations.StoringFrame : Prop :=
  ∀ (i : Instr) (a b : ROperand) (d : WOperand) (s t : State),
    Claims.Stores i a b d → exec i s = .next t →
    (∃ c, t = s.raise c) ∨
    ((∃ x, s.resolveWrite d = .ok x) ∧
      (∀ x, s.resolveWrite d ≠ .ok x → Memory.read t.tape x = Memory.read s.tape x) ∧
      Memory.wf s.tape.length t.tape ∧ t.cfg = s.cfg ∧ t.state = s.state ∧ t.fault = s.fault ∧ t.cmd = s.cmd ∧
      t.pend = s.pend ∧ t.rb = s.rb ∧ t.hostRuns = s.hostRuns ∧ t.hostIn = s.hostIn ∧ t.hostOut = s.hostOut ∧
      t.sent = s.sent)

/-- HALT, JT, JF and ARB: no cell changes, and of the rest only the pc (not by HALT), the engine state (by HALT) and `rb` (by ARB), or the fault entry.
OUT changes no cell, and of the rest only the pc, the outstanding transaction, the output channel and what was sent, or the fault entry.
That HALT leaves the pc (D7; log 7) and a fault has no other effect (D19; log 9) are the spec's choices. -/
def Obligations.NonStoringFrame : Prop :=
  (∀ (a b : ROperand) (i : Instr) (s t : State), (i = .jt a b ∨ i = .jf a b) → exec i s = .next t →
    (∃ c, t = s.raise c) ∨ t = { s with pc := t.pc }) ∧
  (∀ s t : State, exec .halt s = .next t → t = { s with state := t.state }) ∧
  (∀ (o : ROperand) (s t : State), exec (.arb o) s = .next t →
    (∃ c, t = s.raise c) ∨ t = { s with pc := t.pc, rb := t.rb }) ∧
  (∀ (o : ROperand) (s t : State), exec (.out o) s = .next t → (∀ a, s.pend ≠ some (.inp a)) →
    (∃ c, t = { s.raise c with hostOut := t.hostOut }) ∨
    t = { s with pc := t.pc, pend := t.pend, hostOut := t.hostOut, sent := t.sent })

/-- IN: the only cell that can change is the one its outstanding request names, and then only by a completion.
Only its issue step sends anything, and only its completion takes a turn of the host.
That a fault has no other effect is the spec's choice (D19; log 9). -/
def Obligations.InFrame : Prop :=
  ∀ (d : WOperand) (s t : State), exec (.inp d) s = .next t → (∀ v, s.pend ≠ some (.out v)) →
    (∀ x, s.pend ≠ some (.inp x) → Memory.read t.tape x = Memory.read s.tape x) ∧
    Memory.wf s.tape.length t.tape ∧ t.cfg = s.cfg ∧ t.cmd = s.cmd ∧ t.rb = s.rb ∧
    t.hostRuns = s.hostRuns ∧ t.hostOut = s.hostOut ∧
    (t.sent = s.sent ∨ s.pend = none ∧ (∃ a, t.pend = some (.inp a)) ∧ t.sent = s.sent ++ [.inReq]) ∧
    (t.hostIn = s.hostIn ∨ s.pend ≠ none ∧ t.hostIn = s.inTurn.2) ∧
    ((∃ c, t = { s.raise c with hostIn := t.hostIn }) ∨ (t.state = s.state ∧ t.fault = s.fault))

/-- R49, R50: a storing instruction does not read its destination cell: what that cell held makes no difference. -/
def Obligations.DestinationIsNotRead : Prop :=
  ∀ (i : Instr) (a b : ROperand) (d : WOperand) (s t : State) (x : Int) (w : Int),
    Claims.Stores i a b d → s.resolveWrite d = .ok x → s.readAddress a ≠ some x → s.readAddress b ≠ some x →
    exec i s = .next t → t.pc = s.pc + 4 → exec i { s with tape := s.tape.set x.toNat w } = .next t

/-! ### Faults and terminal states -/

/-- R98, R11: a step into Faulted makes the fault entry, the cause with the pc, and changes nothing else, but that a failed answer is taken off its channel; the run then returns the record.
That the return is the next step is the model's choice (log 6), and that a faulting cycle has no other effect is the spec's (D19; log 9). -/
def Obligations.FaultsArePrecise : Prop :=
  ∀ s t : State, s.state = .running → step s = .next t → t.state = .faulted →
    ∃ c, t = { s.raise c with hostIn := t.hostIn, hostOut := t.hostOut } ∧
      (t.hostIn = s.hostIn ∨ (∃ a, s.pend = some (.inp a)) ∧ t.hostIn = s.inTurn.2) ∧
      (t.hostOut = s.hostOut ∨ (∃ v, s.pend = some (.out v)) ∧ t.hostOut = s.outTurn.2) ∧
      t.tape = s.tape ∧ t.pc = s.pc ∧ t.rb = s.rb ∧ t.pend = none ∧ t.fault = some ⟨c, s.pc⟩ ∧
      step t = .next { t with cmd := .idle, sent := t.sent ++ [.runDone (.fault (some ⟨c, s.pc⟩))] }

/-- R96: every step answers a next state; the model never stops the machine with a fault or a refusal of its own.
That a fault of the spec is a next state is log 17, and that a step with no move of the host is one is log 13. -/
def Obligations.EveryStepAnswersNext : Prop := ∀ s : State, ∃ t, step s = .next t

/-- R22, R100, R63: in a terminal state no number of steps changes the engine state, the fault record, the tape, the pc or rb.
That a second run changes nothing is the spec's `RERUN_POLICY` (D8; log 8), that the pc stays where HALT left it is D7 (log 7), and what the host can do is R82 (log 20). -/
def Obligations.TerminalIsForever : Prop :=
  ∀ (k : Nat) (s t : State), s.Terminal → Sys2Proof.core.run k s = .next t →
    t.state = s.state ∧ t.fault = s.fault ∧ t.tape = s.tape ∧ t.pc = s.pc ∧ t.rb = s.rb ∧ t.cfg = s.cfg

/-! ### Invariants -/

/-- The invariant holds after construction from words, at every width of at least 2 (log 1), and at reset (log 12). -/
def Obligations.ConstructedMeetsInv : Prop :=
  (∀ (cfg : Config) (image : List Int), 2 ≤ cfg.width → (∀ v ∈ image, InWord cfg.width v) →
    (State.construct cfg image).Inv) ∧ State.reset.Inv

/-- Every step keeps the invariant.
Its clause on words rests on log 1, and its clause on `rb` in BASE on log 16. -/
def Obligations.StepKeepsInv : Prop := ∀ s t : State, s.Inv → step s = .next t → t.Inv

/-- R18, R76, R84: whatever a machine of words sends to the output port, stores in a cell or holds in `rb` is a word, after any number of steps.
What it starts from is the model's invariant (log 1). -/
def Obligations.OnlyWordsAreHeldAndSent : Prop :=
  ∀ (k : Nat) (s t : State) (v : Int), s.WordsFit → (∀ w, .outReq w ∈ s.sent → InWord s.cfg.width w) →
    Sys2Proof.core.run k s = .next t →
    t.WordsFit ∧ t.cfg = s.cfg ∧ (.outReq v ∈ t.sent → InWord t.cfg.width v) ∧
      (∀ a, Memory.read t.tape a = some v → InWord t.cfg.width v)

/-- R84 (in BASE the register stands at 0 and is unused, log 16): `rb` is 0 after construction, only ARB writes it, and an instruction that is no ARB and has no relative operand does the same whatever `rb` holds. -/
def Obligations.RelativeBaseIsolated : Prop :=
  (∀ (cfg : Config) (image : List Int), (State.construct cfg image).rb = 0) ∧
  (∀ s t : State, step s = .next t → t.rb ≠ s.rb → s.Enabled ∧ ∃ o, s.fetch = .ok (.arb o)) ∧
  (∀ (i : Instr) (s t : State) (r : Int), Claims.noRelative i → (∀ o, i ≠ .arb o) → exec i s = .next t →
    exec i { s with rb := r } = .next { t with rb := r }) ∧
  (∀ (i : Instr) (s t : State) (r : Int), Claims.noRelative i → (∀ o, i ≠ .arb o) → s.Enabled → s.fetch = .ok i →
    step s = .next t → step { s with rb := r } = .next { t with rb := r })

/-! ### Ports -/

/-- R78: while the host gives no answer, a held core changes nothing, for ever with a host that never answers; an answer ends the hold.
How the host's turns are held is the model's choice (log 4), and that a wait is a step is too (log 13). -/
def Obligations.HeldCoreWaits : Prop :=
  ∀ s : State, s.Held →
    (∀ a rest, s.pend = some (.inp a) → s.inTurn = (.wait, rest) → step s = .next { s with hostIn := rest }) ∧
    (∀ v rest, s.pend = some (.out v) → s.outTurn = (.wait, rest) → step s = .next { s with hostOut := rest }) ∧
    (∀ a, s.pend = some (.inp a) → s.hostIn = ⟨[], .every .wait⟩ → ∀ k, Sys2Proof.core.run k s = .next s) ∧
    (∀ v, s.pend = some (.out v) → s.hostOut = ⟨[], .every .wait⟩ → ∀ k, Sys2Proof.core.run k s = .next s) ∧
    (∀ a m rest, s.pend = some (.inp a) → s.inTurn = (m, rest) → m ≠ .wait → ∃ t, step s = .next t ∧ t.pend = none) ∧
    (∀ v m rest, s.pend = some (.out v) → s.outTurn = (m, rest) → m ≠ .wait → ∃ t, step s = .next t ∧ t.pend = none)

/-- R77: a step sends at most one transaction; a port request is sent only with none outstanding, and is then outstanding.
That the return of a run is a step of its own is the model's choice (log 6). -/
def Obligations.OneRequestAtATime : Prop :=
  ∀ s t : State, step s = .next t →
    t.sent = s.sent ∨
    (s.pend = none ∧ (∃ a, t.pend = some (.inp a)) ∧ t.sent = s.sent ++ [.inReq]) ∨
    (s.pend = none ∧ ∃ v, t.pend = some (.out v) ∧ t.sent = s.sent ++ [.outReq v]) ∨
    (t.Terminal ∧ t.cmd = .idle ∧ ∃ r, t.sent = s.sent ++ [.runDone r])

/-- R77: in BASE no step uses a port, and what the host would answer makes no difference.
How the host's answers are held is the model's choice (log 4). -/
def Obligations.BaseNeverUsesPorts : Prop :=
  ∀ (s t : State) (xs : Channel InMove) (ys : Channel OutMove),
    s.cfg.profile = .base → s.pend = none → step s = .next t →
    t.pend = none ∧ t.hostIn = s.hostIn ∧ t.hostOut = s.hostOut ∧
    (t.sent = s.sent ∨ ∃ r, t.sent = s.sent ++ [.runDone r]) ∧
    step { s with hostIn := xs, hostOut := ys } = .next { t with hostIn := xs, hostOut := ys }

/-- R82, R83: at each step the host takes one turn of the channel on which it may act: of an input request outstanding, of an output request outstanding, or of `Run` with `cmd` Idle; the other channels stand.
A turn gives the moves of the channel's script in order, then its one repeated move for ever, or a free one, whose value is a word.
How the moves are held is the model's choice (log 4). -/
def Obligations.HostActsOnlyWhereItMay : Prop :=
  ∀ s : State,
    (∀ m l r, s.hostIn = ⟨m :: l, r⟩ → s.inTurn = (m, ⟨l, r⟩)) ∧
    (∀ m l r, s.hostOut = ⟨m :: l, r⟩ → s.outTurn = (m, ⟨l, r⟩)) ∧
    (∀ m l r, s.hostRuns = ⟨m :: l, r⟩ → s.runTurn = (m, ⟨l, r⟩)) ∧
    (∀ m, s.hostIn = ⟨[], .every m⟩ → s.inTurn = (m, s.hostIn)) ∧
    (∀ m, s.hostOut = ⟨[], .every m⟩ → s.outTurn = (m, s.hostOut)) ∧
    (∀ m, s.hostRuns = ⟨[], .every m⟩ → s.runTurn = (m, s.hostRuns)) ∧
    (∀ n, s.hostIn = ⟨[], .free n⟩ →
      ∃ m, s.inTurn = (m, ⟨[], .free (n + 1)⟩) ∧ ∀ v, m = .value v → InWord s.cfg.width v) ∧
    (∀ n, s.hostOut = ⟨[], .free n⟩ → ∃ m, s.outTurn = (m, ⟨[], .free (n + 1)⟩)) ∧
    (∀ n, s.hostRuns = ⟨[], .free n⟩ → ∃ m, s.runTurn = (m, ⟨[], .free (n + 1)⟩)) ∧
    ∀ t, step s = .next t →
      t.hostIn =
        (match s.cmd, s.state, s.pend with
        | .active, .running, some (.inp _) => s.inTurn.2
        | _, _, _ => s.hostIn) ∧
      t.hostOut =
        (match s.cmd, s.state, s.pend with
        | .active, .running, some (.out _) => s.outTurn.2
        | _, _, _ => s.hostOut) ∧
      t.hostRuns = (match s.cmd with | .idle => s.runTurn.2 | .active => s.hostRuns)

/-- R82: a host may answer every request without end, or none.
Where its channel repeats a move, it does so after any number of steps: an answer ends every hold at once, and a wait lets none end; a `Run` at every turn starts a run or has its result at every idle step.
How the moves are held is the model's choice (log 4), and that a run has its result at once in a terminal state is log 8. -/
def Obligations.HostMayAnswerForEver : Prop :=
  ∀ (k : Nat) (s t : State), Sys2Proof.core.run k s = .next t →
    (∀ m, s.hostIn = ⟨[], .every m⟩ → t.hostIn = ⟨[], .every m⟩ ∧
      ∀ a, t.Held → t.pend = some (.inp a) →
        (m = .wait → step t = .next t) ∧ (m ≠ .wait → ∃ u, step t = .next u ∧ u.pend = none) ∧
        (∀ v, m = .value v → InRange t.tape.length a →
          step t = .next { t with tape := t.tape.set a.toNat v, pc := t.pc + 2, pend := none })) ∧
    (∀ m, s.hostOut = ⟨[], .every m⟩ → t.hostOut = ⟨[], .every m⟩ ∧
      ∀ v, t.Held → t.pend = some (.out v) →
        (m = .wait → step t = .next t) ∧ (m ≠ .wait → ∃ u, step t = .next u ∧ u.pend = none) ∧
        (m = .ack → step t = .next { t with pc := t.pc + 2, pend := none })) ∧
    (∀ m, s.hostRuns = ⟨[], .every m⟩ → t.hostRuns = ⟨[], .every m⟩ ∧
      (t.cmd = .idle →
        (m = .wait → step t = .next t) ∧
        (m = .run → t.state = .running → step t = .next { t with cmd := .active }) ∧
        (m = .run → t.Terminal → ∃ r, step t = .next { t with sent := t.sent ++ [.runDone r] })))

/-! ### Runs -/

/-- R62: a `Run` on a running machine makes the command active and changes nothing else; in a terminal state the command becomes idle and the result is returned.
That the return is a step of its own is the model's choice (log 6). -/
def Obligations.RunStartsAndReturns : Prop :=
  ∀ s : State,
    (∀ rest, s.cmd = .idle → s.state = .running → s.runTurn = (.run, rest) →
      step s = .next { s with cmd := .active, hostRuns := rest }) ∧
    (s.cmd = .active → s.state = .halted →
      step s = .next { s with cmd := .idle, sent := s.sent ++ [.runDone .success] }) ∧
    (s.cmd = .active → s.state = .faulted →
      step s = .next { s with cmd := .idle, sent := s.sent ++ [.runDone (.fault s.fault)] })

/-- R63: a `Run` on a terminal machine executes no cycle and returns success, or the recorded fault, at once.
The document leaves a second run undefined; this is the spec's `RERUN_POLICY` (D8; log 8). -/
def Obligations.RerunReportsAtOnce : Prop :=
  ∀ (s : State) (rest : Channel RunMove), s.cmd = .idle → s.runTurn = (.run, rest) →
    (s.state = .halted → step s = .next { s with hostRuns := rest, sent := s.sent ++ [.runDone .success] }) ∧
    (s.state = .faulted → step s = .next { s with hostRuns := rest, sent := s.sent ++ [.runDone (.fault s.fault)] })

/-- R24: `cmd` is Idle after construction; a step makes it Active only where the host issues `Run`, and Idle again only where the run returns.
How the host's turns are held is the model's choice (log 4), and the return is a step of its own (log 6).
Only with `cmd` Active and `state` Running does a step change the tape, the pc, the engine state, the fault record, the outstanding transaction or rb. -/
def Obligations.OnlyActiveRunningExecutes : Prop :=
  (∀ (cfg : Config) (image : List Int), (State.construct cfg image).cmd = .idle) ∧
  (∀ s t : State, step s = .next t → s.cmd = .idle → t.cmd = .active → ∃ rest, s.runTurn = (.run, rest)) ∧
  (∀ s t : State, step s = .next t → s.cmd = .active → t.cmd = .idle →
    s.Terminal ∧ ∃ r, t.sent = s.sent ++ [.runDone r]) ∧
  (∀ s t : State, step s = .next t → ¬ (s.cmd = .active ∧ s.state = .running) →
    t.tape = s.tape ∧ t.pc = s.pc ∧ t.state = s.state ∧ t.fault = s.fault ∧ t.pend = s.pend ∧ t.rb = s.rb)

/-- R64: a BASE run ends within `ceil(N/4) + 1` cycles, Halted or Faulted. -/
def Obligations.BaseRunEnds : Prop :=
  ∀ s : State, s.Enabled → s.cfg.profile = .base → s.pc = 0 →
    ∃ k t, k ≤ (s.tape.length + 3) / 4 + 1 ∧ Sys2Proof.core.run k s = .next t ∧ t.Terminal

/-! ### Reset and the host's views -/

/-- R28: the values of every piece of state after construction, in either profile.
R28 gives `rb` for EXT only; that it is 0 in BASE too is the model's choice (log 16). -/
def Obligations.ConstructionValues : Prop :=
  ∀ (cfg : Config) (image : List Int),
    let s := State.construct cfg image
    s.tape = image ∧ s.pc = 0 ∧ s.state = .running ∧ s.fault = none ∧ s.cmd = .idle ∧ s.pend = none ∧ s.rb = 0 ∧
    s.tape.length = image.length ∧ s.statusBlock = ⟨0, 0, 0, 0, 0, 0⟩

/-- R26: the fields of the status block, for every record.
FAULT_PC and FAULT_ADDR show the value where it fits in `W` bits; elsewhere the model's value is free and fits (log 11). -/
def Obligations.StatusBlockFields : Prop :=
  ∀ (s : State), s.FaultRecorded →
    (s.state = .running → s.statusBlock = ⟨0, 0, 0, 0, 0, 0⟩) ∧
    (s.state = .halted → s.statusBlock = ⟨1, 0, 0, 0, 0, 0⟩) ∧
    (∀ c fpc, s.fault = some ⟨c, fpc⟩ →
      s.statusBlock.state = 2 ∧
      (InWord s.cfg.width fpc → s.statusBlock.faultPc = fpc) ∧
      InWord s.cfg.width s.statusBlock.faultPc ∧
      (∀ w, c = .invalidOpcode w → s.statusBlock.faultKind = 1 ∧ s.statusBlock.faultAddr = 0 ∧
        s.statusBlock.faultAccess = 0 ∧ s.statusBlock.faultCell = w) ∧
      (∀ a k, c = .memoryFault a k → s.statusBlock.faultKind = 2 ∧
        (InWord s.cfg.width a → s.statusBlock.faultAddr = a) ∧ InWord s.cfg.width s.statusBlock.faultAddr ∧
        s.statusBlock.faultAccess = (match k with | .fetch => 0 | .operand => 1 | .read => 2 | .write => 3) ∧
        s.statusBlock.faultCell = 0) ∧
      (∀ p, c = .portFailure p → s.statusBlock.faultKind = 3 ∧ s.statusBlock.faultAddr = 0 ∧
        s.statusBlock.faultAccess = (match p with | .inp => 4 | .out => 5) ∧ s.statusBlock.faultCell = 0) ∧
      (∀ v, c = .arithmeticOverflow v → s.statusBlock.faultKind = 4 ∧ s.statusBlock.faultAddr = 0 ∧
        s.statusBlock.faultAccess = 0 ∧ s.statusBlock.faultCell = 0))

/-- R81: the dump is a bracket, the canonical decimals of the cells in order with a comma and a space between, and a bracket. -/
def Obligations.DumpHasExactShape : Prop :=
  ∀ s : State, ∃ ds : List (List Char),
    List.Forall₂ Claims.Canonical s.tape ds ∧
    s.dump.toList = ['['] ++ List.intercalate [',', ' '] ds ++ [']'] ∧ (s.tape = [] → s.dump = "[]")

/-- R81: two machines with the same dump have the same tape, so an oracle that compares dumps compares tapes. -/
def Obligations.DumpDeterminesTape : Prop := ∀ s t : State, s.dump = t.dump → s.tape = t.tape
end

