-- ==== Sys2Proof/Laws/Decode.lean ====
section
/-! SUPPORT. The decoder's small laws: mode digits, heads, and what a head's parameters give. -/

namespace Sys2Proof

@[simp] theorem RMode.ofDigit_digit (m : RMode) : RMode.ofDigit? m.digit = some m := by cases m <;> rfl

@[simp] theorem WMode.ofDigit_digit (m : WMode) : WMode.ofDigit? m.digit = some m := by cases m <;> rfl

theorem RMode.ofDigit_eq_some {n : Nat} {m : RMode} : RMode.ofDigit? n = some m ↔ n = m.digit := by
  constructor
  · intro h; unfold RMode.ofDigit? at h; split at h <;> simp_all [RMode.digit] <;> (subst h; rfl)
  · rintro rfl; simp

theorem WMode.ofDigit_eq_some {n : Nat} {m : WMode} : WMode.ofDigit? n = some m ↔ n = m.digit := by
  constructor
  · intro h; unfold WMode.ofDigit? at h; split at h <;> simp_all [WMode.digit] <;> (subst h; rfl)
  · rintro rfl; simp

theorem RMode.digit_lt (m : RMode) : m.digit < 3 := by cases m <;> decide

theorem WMode.digit_lt (m : WMode) : m.digit < 3 := by cases m <;> decide

theorem RMode.digit_eq_zero {m : RMode} : m.digit = 0 ↔ m = .position := by cases m <;> decide

theorem WMode.digit_eq_zero {m : WMode} : m.digit = 0 ↔ m = .position := by cases m <;> decide

/-- The number of an opcode (R49). -/
def Opcode.number : Opcode → Nat
  | .f3 .add => 1
  | .f3 .mul => 2
  | .inp => 3
  | .f1 .out => 4
  | .f2 .jt => 5
  | .f2 .jf => 6
  | .f3 .lt => 7
  | .f3 .eq => 8
  | .f1 .arb => 9
  | .halt => 99

theorem Opcode.ofNat_eq_some {n : Nat} {op : Opcode} : Opcode.ofNat? n = some op ↔ n = op.number := by
  constructor
  · intro h; unfold Opcode.ofNat? at h; split at h <;> simp_all <;> (subst h; rfl)
  · rintro rfl
    cases op with
    | f3 op => cases op <;> rfl
    | f2 op => cases op <;> rfl
    | f1 op => cases op <;> rfl
    | inp => rfl
    | halt => rfl

theorem Opcode.number_inj {a b : Opcode} (h : a.number = b.number) : a = b :=
  Option.some.inj ((Opcode.ofNat_eq_some.mpr rfl).symm.trans (Opcode.ofNat_eq_some.mpr h))

/-- The opcode of a decoded cell. -/
def Head.opcode : Head → Opcode
  | .f3 op _ _ _ => .f3 op
  | .f2 op _ _ => .f2 op
  | .f1 op _ => .f1 op
  | .inp _ => .inp
  | .halt => .halt

/-- The number of operands of a decoded cell (R47). -/
def Head.arity : Head → Nat
  | .f3 _ _ _ _ => 3
  | .f2 _ _ _ => 2
  | .f1 _ _ => 1
  | .inp _ => 1
  | .halt => 0

/-- The cell a head stands for, as a number. -/
def Head.cell : Head → Nat
  | .f3 op m0 m1 m2 => (Opcode.f3 op).number + 100 * m0.digit + 1000 * m1.digit + 10000 * m2.digit
  | .f2 op m0 m1 => (Opcode.f2 op).number + 100 * m0.digit + 1000 * m1.digit
  | .f1 op m0 => (Opcode.f1 op).number + 100 * m0.digit
  | .inp m0 => 3 + 100 * m0.digit
  | .halt => 99

theorem Head.opcode_number_lt (op : Opcode) : op.number < 100 := by
  rcases op with op | op | op | _ | _ <;> try cases op
  all_goals decide

/-- The mode digits read by R85 give the head whose cell the number is. -/
theorem Opcode.extHead_eq_some {n : Nat} {op : Opcode} {h : Head} (hn : n % 100 = op.number) :
    op.extHead? n = some h ↔ h.opcode = op ∧ n = h.cell := by
  constructor
  · intro hh
    cases op with
    | f3 op =>
      simp only [Opcode.extHead?] at hh
      split at hh
      · rename_i m0 m1 m2 e0 e1 e2
        rw [RMode.ofDigit_eq_some] at e0 e1
        rw [WMode.ofDigit_eq_some] at e2
        split at hh
        · cases hh
          refine ⟨rfl, ?_⟩
          simp only [modeDigit, highDigits] at *
          simp only [Head.cell]
          omega
        · cases hh
      · cases hh
    | f2 op =>
      simp only [Opcode.extHead?] at hh
      split at hh
      · rename_i m0 m1 e0 e1
        rw [RMode.ofDigit_eq_some] at e0 e1
        split at hh
        · cases hh
          refine ⟨rfl, ?_⟩
          simp only [modeDigit, highDigits] at *
          simp only [Head.cell]
          omega
        · cases hh
      · cases hh
    | f1 op =>
      simp only [Opcode.extHead?] at hh
      split at hh
      · rename_i m0 e0
        rw [RMode.ofDigit_eq_some] at e0
        split at hh
        · cases hh
          refine ⟨rfl, ?_⟩
          simp only [modeDigit, highDigits] at *
          simp only [Head.cell]
          omega
        · cases hh
      · cases hh
    | inp =>
      simp only [Opcode.extHead?] at hh
      split at hh
      · rename_i m0 e0
        rw [WMode.ofDigit_eq_some] at e0
        split at hh
        · cases hh
          refine ⟨rfl, ?_⟩
          simp only [modeDigit, highDigits, Opcode.number] at *
          simp only [Head.cell]
          omega
        · cases hh
      · cases hh
    | halt =>
      simp only [Opcode.extHead?] at hh
      split at hh
      · cases hh
        refine ⟨rfl, ?_⟩
        simp only [highDigits, Opcode.number] at *
        simp only [Head.cell]
        omega
      · cases hh
  · rintro ⟨rfl, rfl⟩
    cases h with
    | f3 op m0 m1 m2 =>
      have h0 := m0.digit_lt; have h1 := m1.digit_lt; have h2 := m2.digit_lt
      have hop := Head.opcode_number_lt (.f3 op)
      have e0 : modeDigit (Head.f3 op m0 m1 m2).cell 0 = m0.digit := by simp only [modeDigit, Head.cell]; omega
      have e1 : modeDigit (Head.f3 op m0 m1 m2).cell 1 = m1.digit := by simp only [modeDigit, Head.cell]; omega
      have e2 : modeDigit (Head.f3 op m0 m1 m2).cell 2 = m2.digit := by simp only [modeDigit, Head.cell]; omega
      have e3 : highDigits (Head.f3 op m0 m1 m2).cell 3 = 0 := by simp only [highDigits, Head.cell]; omega
      simp [Head.opcode, Opcode.extHead?, e0, e1, e2, e3]
    | f2 op m0 m1 =>
      have h0 := m0.digit_lt; have h1 := m1.digit_lt
      have hop := Head.opcode_number_lt (.f2 op)
      have e0 : modeDigit (Head.f2 op m0 m1).cell 0 = m0.digit := by simp only [modeDigit, Head.cell]; omega
      have e1 : modeDigit (Head.f2 op m0 m1).cell 1 = m1.digit := by simp only [modeDigit, Head.cell]; omega
      have e3 : highDigits (Head.f2 op m0 m1).cell 2 = 0 := by simp only [highDigits, Head.cell]; omega
      simp [Head.opcode, Opcode.extHead?, e0, e1, e3]
    | f1 op m0 =>
      have h0 := m0.digit_lt
      have hop := Head.opcode_number_lt (.f1 op)
      have e0 : modeDigit (Head.f1 op m0).cell 0 = m0.digit := by simp only [modeDigit, Head.cell]; omega
      have e3 : highDigits (Head.f1 op m0).cell 1 = 0 := by simp only [highDigits, Head.cell]; omega
      simp [Head.opcode, Opcode.extHead?, e0, e3]
    | inp m0 =>
      have h0 := m0.digit_lt
      have e0 : modeDigit (Head.inp m0).cell 0 = m0.digit := by simp only [modeDigit, Head.cell]; omega
      have e3 : highDigits (Head.inp m0).cell 1 = 0 := by simp only [highDigits, Head.cell]; omega
      simp [Head.opcode, Opcode.extHead?, e0, e3]
    | halt => rfl

/-- A head a profile has: in BASE an ADD, MUL or HALT cell with no mode digit (R51, R54). -/
def Head.inProfile : Profile → Head → Prop
  | .ext, _ => True
  | .base, h => h.cell = 1 ∨ h.cell = 2 ∨ h.cell = 99

theorem Head.cell_mod (h : Head) : h.cell % 100 = h.opcode.number := by
  cases h with
  | f3 op m0 m1 m2 => have := Head.opcode_number_lt (.f3 op); simp only [Head.cell, Head.opcode]; omega
  | f2 op m0 m1 => have := Head.opcode_number_lt (.f2 op); simp only [Head.cell, Head.opcode]; omega
  | f1 op m0 => have := Head.opcode_number_lt (.f1 op); simp only [Head.cell, Head.opcode]; omega
  | inp m0 => simp only [Head.cell, Head.opcode, Opcode.number]; omega
  | halt => rfl

/-- The decoder of the instruction cell, said once: it accepts a cell exactly if the cell's value is that of a head of the profile. -/
theorem decodeHead_ok {p : Profile} {c : Int} {h : Head} :
    decodeHead p c = .ok h ↔ c = h.cell ∧ h.inProfile p := by
  have key : ∀ op n, n % 100 = op.number → (op.supported p = true ∧ op.head? p n = some h ↔
      h.opcode = op ∧ n = h.cell ∧ h.inProfile p) := by
    intro op n hn
    cases p with
    | ext =>
      simp only [Opcode.supported, Opcode.head?, Head.inProfile, true_and, and_true]
      exact Opcode.extHead_eq_some hn
    | base =>
      simp only [Opcode.head?, Head.inProfile]
      constructor
      · rintro ⟨hs, hh⟩
        split at hh
        · obtain ⟨h1, h2⟩ := (Opcode.extHead_eq_some hn).mp hh
          refine ⟨h1, h2, ?_⟩
          have hlt : n = op.number := by omega
          rw [← h2, hlt]
          rcases op with op | op | op | _ | _ <;> try cases op
          all_goals simp_all [Opcode.supported, Opcode.number]
        · cases hh
      · rintro ⟨h1, h2, h3⟩
        have hz : n / 100 = 0 := by omega
        refine ⟨?_, by rw [if_pos hz]; exact (Opcode.extHead_eq_some hn).mpr ⟨h1, h2⟩⟩
        have hnum : op.number = 1 ∨ op.number = 2 ∨ op.number = 99 := by omega
        rcases op with op | op | op | _ | _ <;> try cases op
        all_goals simp_all [Opcode.supported, Opcode.number]
  unfold decodeHead
  by_cases hneg : c < 0
  · simp only [hneg, if_true, reduceCtorEq, false_iff]; rintro ⟨h1, -⟩; omega
  · simp only [hneg, if_false]
    have hc : c = h.cell ↔ c.toNat = h.cell := by omega
    split
    · rename_i hnone
      simp only [reduceCtorEq, false_iff]
      rintro ⟨h1, -⟩
      have := Opcode.ofNat_eq_some.mpr ((congrArg (· % 100) (hc.mp h1)).trans h.cell_mod)
      simp_all
    · rename_i op hop
      have hn := Opcode.ofNat_eq_some.mp hop
      have hk := key op _ hn
      split
      · rename_i hs
        split
        · rename_i hh
          simp only [reduceCtorEq, false_iff]
          rintro ⟨h1, h2⟩
          have hop' : h.opcode = op := Opcode.number_inj (by rw [← h.cell_mod, ← hc.mp h1, hn])
          have := hk.mpr ⟨hop', hc.mp h1, h2⟩
          simp_all
        · rename_i h' hh
          simp only [Except.ok.injEq]
          constructor
          · rintro rfl
            have := hk.mp ⟨hs, hh⟩
            exact ⟨hc.mpr this.2.1, this.2.2⟩
          · rintro ⟨h1, h2⟩
            have hop' : h.opcode = op := Opcode.number_inj (by rw [← h.cell_mod, ← hc.mp h1, hn])
            have := hk.mpr ⟨hop', hc.mp h1, h2⟩
            simp_all
      · rename_i hs
        simp only [reduceCtorEq, false_iff]
        rintro ⟨h1, h2⟩
        have hop' : h.opcode = op := Opcode.number_inj (by rw [← h.cell_mod, ← hc.mp h1, hn])
        have := hk.mpr ⟨hop', hc.mp h1, h2⟩
        simp_all

/-! ### Heads of instructions -/

/-- The instruction cell of an instruction, decoded. -/
def Instr.head : Instr → Head
  | .add a b d => .f3 .add a.mode b.mode d.mode
  | .mul a b d => .f3 .mul a.mode b.mode d.mode
  | .halt => .halt
  | .inp d => .inp d.mode
  | .out a => .f1 .out a.mode
  | .jt a b => .f2 .jt a.mode b.mode
  | .jf a b => .f2 .jf a.mode b.mode
  | .lt a b d => .f3 .lt a.mode b.mode d.mode
  | .eq a b d => .f3 .eq a.mode b.mode d.mode
  | .arb a => .f1 .arb a.mode

theorem Instr.headCell_eq (i : Instr) : i.headCell = i.head.cell := by cases i <;> rfl

/-- What a head and the cells after it give. -/
theorem Head.withParams_ok {h : Head} {cells rest : List Int} {i : Instr} :
    h.withParams cells = .ok (i, rest) ↔ i.head = h ∧ cells = i.params ++ rest := by
  constructor
  · intro hh
    unfold Head.withParams at hh
    split at hh
    all_goals first
      | (cases hh; done)
      | (rename_i op _ _ _ _ _ _ _; cases op <;> cases hh <;> exact ⟨rfl, rfl⟩)
      | (rename_i op _ _ _ _ _; cases op <;> cases hh <;> exact ⟨rfl, rfl⟩)
      | (rename_i op _ _ _; cases op <;> cases hh <;> exact ⟨rfl, rfl⟩)
      | (cases hh; exact ⟨rfl, rfl⟩)
  · rintro ⟨rfl, rfl⟩
    cases i <;> rfl

theorem Head.cell_base {h : Head} : h.inProfile .base ↔ h = .f3 .add .position .position .position ∨
    h = .f3 .mul .position .position .position ∨ h = .halt := by
  constructor
  · intro hh
    cases h with
    | f3 op m0 m1 m2 =>
      have e0 : m0 = .position := RMode.digit_eq_zero.mp (by simp only [Head.inProfile, Head.cell] at hh; cases op <;> simp only [Opcode.number] at hh <;> omega)
      have e1 : m1 = .position := RMode.digit_eq_zero.mp (by simp only [Head.inProfile, Head.cell] at hh; cases op <;> simp only [Opcode.number] at hh <;> omega)
      have e2 : m2 = .position := WMode.digit_eq_zero.mp (by simp only [Head.inProfile, Head.cell] at hh; cases op <;> simp only [Opcode.number] at hh <;> omega)
      subst e0 e1 e2
      cases op
      · exact .inl rfl
      · exact .inr (.inl rfl)
      all_goals simp [Head.inProfile, Head.cell, Opcode.number, RMode.digit, WMode.digit] at hh
    | f2 op m0 m1 => simp only [Head.inProfile, Head.cell] at hh; cases op <;> simp only [Opcode.number] at hh <;> omega
    | f1 op m0 => simp only [Head.inProfile, Head.cell] at hh; cases op <;> simp only [Opcode.number] at hh <;> omega
    | inp m0 => simp only [Head.inProfile, Head.cell] at hh; omega
    | halt => exact .inr (.inr rfl)
  · rintro (rfl | rfl | rfl)
    · exact .inl rfl
    · exact .inr (.inl rfl)
    · exact .inr (.inr rfl)

/-- An instruction belongs to a profile exactly if its head does. -/
theorem Instr.wellFormed_iff (p : Profile) (i : Instr) : i.wellFormed p = true ↔ i.head.inProfile p := by
  cases p with
  | ext => cases i <;> simp [Instr.wellFormed, Head.inProfile, ROperand.wellFormed, WOperand.wellFormed]
  | base =>
    rw [Head.cell_base]
    cases i <;>
      simp [Instr.wellFormed, Instr.head, ROperand.wellFormed, WOperand.wellFormed, and_assoc]

end Sys2Proof
end

