-- ==== Sys2Proof/Laws/Memory.lean ====
section
/-! SUPPORT. The laws of the tape: a read after a write, and that a write keeps the number of cells. -/

namespace Sys2Proof.Machine

theorem Memory.read_outside {t : List Int} {a : Int} (h : ¬ InRange t.length a) : Memory.read t a = none := if_neg h

theorem Memory.read_inside {t : List Int} {a : Int} (h : InRange t.length a) : ∃ v, Memory.read t a = some v := by
  have hlt : a.toNat < t.length := by omega
  exact ⟨t[a.toNat], by simp [Memory.read, h, hlt]⟩

theorem Memory.inRange_of_read {t : List Int} {a : Int} {v : Int} (h : Memory.read t a = some v) : InRange t.length a := by
  by_contra hn
  simp [Memory.read_outside hn] at h

theorem Memory.write_outside {t : List Int} {a : Int} (v : Int) (h : ¬ InRange t.length a) : Memory.write t a v = none :=
  if_neg h

theorem Memory.write_inside {t : List Int} {a : Int} (v : Int) (h : InRange t.length a) :
    Memory.write t a v = some (t.set a.toNat v) := if_pos h

theorem Memory.write_eq_some {t t' : List Int} {a : Int} {v : Int} :
    Memory.write t a v = some t' ↔ InRange t.length a ∧ t' = t.set a.toNat v := by
  by_cases h : InRange t.length a
  · rw [Memory.write_inside v h, Option.some.injEq]
    exact ⟨fun e => ⟨h, e.symm⟩, fun e => e.2.symm⟩
  · simp [Memory.write_outside v h, h]

/-- Every memory operation keeps the form: the tape keeps its `n` cells. -/
theorem Memory.write_wf {t t' : List Int} {a : Int} {v : Int} {n : Nat} (hw : Memory.wf n t)
    (h : Memory.write t a v = some t') : Memory.wf n t' := by
  obtain ⟨-, rfl⟩ := Memory.write_eq_some.mp h
  simpa [Memory.wf] using hw

theorem Memory.read_set_same {t : List Int} {a : Int} (v : Int) (h : InRange t.length a) :
    Memory.read (t.set a.toNat v) a = some v := by
  have hlt : a.toNat < t.length := by omega
  simp [Memory.read, h, hlt]

theorem Memory.read_set_other {t : List Int} {a b : Int} (v : Int) (h : InRange t.length a) (hb : b ≠ a) :
    Memory.read (t.set a.toNat v) b = Memory.read t b := by
  by_cases hr : InRange t.length b
  · have hne : a.toNat ≠ b.toNat := by omega
    simp only [Memory.read, List.length_set, List.getElem?_set_ne hne]
  · simp [Memory.read, hr]

/-- The tape of a constructed machine has the form, with `N` the length of its image. -/
theorem Memory.construct_wf (cfg : Config) (image : List Int) : Memory.wf image.length (State.construct cfg image).tape := rfl

theorem Memory.reset_wf : Memory.wf 0 State.reset.tape := rfl

end Sys2Proof.Machine
end

