-- ==== Sys2Proof/Laws/State.lean ====
section
/-! SUPPORT. One lemma for each field of each named update of the state, and for each kind of turn of the host. -/

namespace Sys2Proof.Machine

/-! ### `Channel.turn` -/

@[simp] theorem Channel.turn_script {α : Type} (draw : Nat → α) (m : α) (l : List α) (r : Rest α) :
    Channel.turn draw ⟨m :: l, r⟩ = (m, ⟨l, r⟩) := rfl
@[simp] theorem Channel.turn_every {α : Type} (draw : Nat → α) (m : α) :
    Channel.turn draw ⟨[], .every m⟩ = (m, ⟨[], .every m⟩) := rfl
@[simp] theorem Channel.turn_free {α : Type} (draw : Nat → α) (n : Nat) :
    Channel.turn draw ⟨[], .free n⟩ = (draw n, ⟨[], .free (n + 1)⟩) := rfl

/-! ### `State.raise` -/

@[simp] theorem State.raise_cfg (s : State) (c : FaultCause) : (s.raise c).cfg = s.cfg := rfl
@[simp] theorem State.raise_tape (s : State) (c : FaultCause) : (s.raise c).tape = s.tape := rfl
@[simp] theorem State.raise_pc (s : State) (c : FaultCause) : (s.raise c).pc = s.pc := rfl
@[simp] theorem State.raise_state (s : State) (c : FaultCause) : (s.raise c).state = .faulted := rfl
@[simp] theorem State.raise_fault (s : State) (c : FaultCause) : (s.raise c).fault = some ⟨c, s.pc⟩ := rfl
@[simp] theorem State.raise_cmd (s : State) (c : FaultCause) : (s.raise c).cmd = s.cmd := rfl
@[simp] theorem State.raise_pend (s : State) (c : FaultCause) : (s.raise c).pend = none := rfl
@[simp] theorem State.raise_rb (s : State) (c : FaultCause) : (s.raise c).rb = s.rb := rfl
@[simp] theorem State.raise_hostRuns (s : State) (c : FaultCause) : (s.raise c).hostRuns = s.hostRuns := rfl
@[simp] theorem State.raise_hostIn (s : State) (c : FaultCause) : (s.raise c).hostIn = s.hostIn := rfl
@[simp] theorem State.raise_hostOut (s : State) (c : FaultCause) : (s.raise c).hostOut = s.hostOut := rfl
@[simp] theorem State.raise_sent (s : State) (c : FaultCause) : (s.raise c).sent = s.sent := rfl

/-! ### `State.advance` -/

@[simp] theorem State.advance_cfg (s : State) (n : Nat) : (s.advance n).cfg = s.cfg := rfl
@[simp] theorem State.advance_tape (s : State) (n : Nat) : (s.advance n).tape = s.tape := rfl
@[simp] theorem State.advance_pc (s : State) (n : Nat) : (s.advance n).pc = s.pc + n := rfl
@[simp] theorem State.advance_state (s : State) (n : Nat) : (s.advance n).state = s.state := rfl
@[simp] theorem State.advance_fault (s : State) (n : Nat) : (s.advance n).fault = s.fault := rfl
@[simp] theorem State.advance_cmd (s : State) (n : Nat) : (s.advance n).cmd = s.cmd := rfl
@[simp] theorem State.advance_pend (s : State) (n : Nat) : (s.advance n).pend = s.pend := rfl
@[simp] theorem State.advance_rb (s : State) (n : Nat) : (s.advance n).rb = s.rb := rfl
@[simp] theorem State.advance_hostRuns (s : State) (n : Nat) : (s.advance n).hostRuns = s.hostRuns := rfl
@[simp] theorem State.advance_hostIn (s : State) (n : Nat) : (s.advance n).hostIn = s.hostIn := rfl
@[simp] theorem State.advance_hostOut (s : State) (n : Nat) : (s.advance n).hostOut = s.hostOut := rfl
@[simp] theorem State.advance_sent (s : State) (n : Nat) : (s.advance n).sent = s.sent := rfl

/-! ### `State.jumpTo` -/

@[simp] theorem State.jumpTo_cfg (s : State) (v : Int) : (s.jumpTo v).cfg = s.cfg := rfl
@[simp] theorem State.jumpTo_tape (s : State) (v : Int) : (s.jumpTo v).tape = s.tape := rfl
@[simp] theorem State.jumpTo_pc (s : State) (v : Int) : (s.jumpTo v).pc = v := rfl
@[simp] theorem State.jumpTo_state (s : State) (v : Int) : (s.jumpTo v).state = s.state := rfl
@[simp] theorem State.jumpTo_fault (s : State) (v : Int) : (s.jumpTo v).fault = s.fault := rfl
@[simp] theorem State.jumpTo_cmd (s : State) (v : Int) : (s.jumpTo v).cmd = s.cmd := rfl
@[simp] theorem State.jumpTo_pend (s : State) (v : Int) : (s.jumpTo v).pend = s.pend := rfl
@[simp] theorem State.jumpTo_rb (s : State) (v : Int) : (s.jumpTo v).rb = s.rb := rfl
@[simp] theorem State.jumpTo_hostRuns (s : State) (v : Int) : (s.jumpTo v).hostRuns = s.hostRuns := rfl
@[simp] theorem State.jumpTo_hostIn (s : State) (v : Int) : (s.jumpTo v).hostIn = s.hostIn := rfl
@[simp] theorem State.jumpTo_hostOut (s : State) (v : Int) : (s.jumpTo v).hostOut = s.hostOut := rfl
@[simp] theorem State.jumpTo_sent (s : State) (v : Int) : (s.jumpTo v).sent = s.sent := rfl

/-! ### `State.setRb` -/

@[simp] theorem State.setRb_cfg (s : State) (v : Int) : (s.setRb v).cfg = s.cfg := rfl
@[simp] theorem State.setRb_tape (s : State) (v : Int) : (s.setRb v).tape = s.tape := rfl
@[simp] theorem State.setRb_pc (s : State) (v : Int) : (s.setRb v).pc = s.pc := rfl
@[simp] theorem State.setRb_state (s : State) (v : Int) : (s.setRb v).state = s.state := rfl
@[simp] theorem State.setRb_fault (s : State) (v : Int) : (s.setRb v).fault = s.fault := rfl
@[simp] theorem State.setRb_cmd (s : State) (v : Int) : (s.setRb v).cmd = s.cmd := rfl
@[simp] theorem State.setRb_pend (s : State) (v : Int) : (s.setRb v).pend = s.pend := rfl
@[simp] theorem State.setRb_rb (s : State) (v : Int) : (s.setRb v).rb = v := rfl
@[simp] theorem State.setRb_hostRuns (s : State) (v : Int) : (s.setRb v).hostRuns = s.hostRuns := rfl
@[simp] theorem State.setRb_hostIn (s : State) (v : Int) : (s.setRb v).hostIn = s.hostIn := rfl
@[simp] theorem State.setRb_hostOut (s : State) (v : Int) : (s.setRb v).hostOut = s.hostOut := rfl
@[simp] theorem State.setRb_sent (s : State) (v : Int) : (s.setRb v).sent = s.sent := rfl

/-! ### `State.halt` -/

@[simp] theorem State.halt_cfg (s : State) : (s.halt).cfg = s.cfg := rfl
@[simp] theorem State.halt_tape (s : State) : (s.halt).tape = s.tape := rfl
@[simp] theorem State.halt_pc (s : State) : (s.halt).pc = s.pc := rfl
@[simp] theorem State.halt_state (s : State) : (s.halt).state = .halted := rfl
@[simp] theorem State.halt_fault (s : State) : (s.halt).fault = s.fault := rfl
@[simp] theorem State.halt_cmd (s : State) : (s.halt).cmd = s.cmd := rfl
@[simp] theorem State.halt_pend (s : State) : (s.halt).pend = s.pend := rfl
@[simp] theorem State.halt_rb (s : State) : (s.halt).rb = s.rb := rfl
@[simp] theorem State.halt_hostRuns (s : State) : (s.halt).hostRuns = s.hostRuns := rfl
@[simp] theorem State.halt_hostIn (s : State) : (s.halt).hostIn = s.hostIn := rfl
@[simp] theorem State.halt_hostOut (s : State) : (s.halt).hostOut = s.hostOut := rfl
@[simp] theorem State.halt_sent (s : State) : (s.halt).sent = s.sent := rfl

/-! ### `State.issue` -/

@[simp] theorem State.issue_cfg (s : State) (p : Pend) (r : Sent) : (s.issue p r).cfg = s.cfg := rfl
@[simp] theorem State.issue_tape (s : State) (p : Pend) (r : Sent) : (s.issue p r).tape = s.tape := rfl
@[simp] theorem State.issue_pc (s : State) (p : Pend) (r : Sent) : (s.issue p r).pc = s.pc := rfl
@[simp] theorem State.issue_state (s : State) (p : Pend) (r : Sent) : (s.issue p r).state = s.state := rfl
@[simp] theorem State.issue_fault (s : State) (p : Pend) (r : Sent) : (s.issue p r).fault = s.fault := rfl
@[simp] theorem State.issue_cmd (s : State) (p : Pend) (r : Sent) : (s.issue p r).cmd = s.cmd := rfl
@[simp] theorem State.issue_pend (s : State) (p : Pend) (r : Sent) : (s.issue p r).pend = some p := rfl
@[simp] theorem State.issue_rb (s : State) (p : Pend) (r : Sent) : (s.issue p r).rb = s.rb := rfl
@[simp] theorem State.issue_hostRuns (s : State) (p : Pend) (r : Sent) : (s.issue p r).hostRuns = s.hostRuns := rfl
@[simp] theorem State.issue_hostIn (s : State) (p : Pend) (r : Sent) : (s.issue p r).hostIn = s.hostIn := rfl
@[simp] theorem State.issue_hostOut (s : State) (p : Pend) (r : Sent) : (s.issue p r).hostOut = s.hostOut := rfl
@[simp] theorem State.issue_sent (s : State) (p : Pend) (r : Sent) : (s.issue p r).sent = s.sent ++ [r] := rfl

/-! ### `State.tookRun` -/

@[simp] theorem State.tookRun_cfg (s : State) (l : Channel RunMove) : (s.tookRun l).cfg = s.cfg := rfl
@[simp] theorem State.tookRun_tape (s : State) (l : Channel RunMove) : (s.tookRun l).tape = s.tape := rfl
@[simp] theorem State.tookRun_pc (s : State) (l : Channel RunMove) : (s.tookRun l).pc = s.pc := rfl
@[simp] theorem State.tookRun_state (s : State) (l : Channel RunMove) : (s.tookRun l).state = s.state := rfl
@[simp] theorem State.tookRun_fault (s : State) (l : Channel RunMove) : (s.tookRun l).fault = s.fault := rfl
@[simp] theorem State.tookRun_cmd (s : State) (l : Channel RunMove) : (s.tookRun l).cmd = s.cmd := rfl
@[simp] theorem State.tookRun_pend (s : State) (l : Channel RunMove) : (s.tookRun l).pend = s.pend := rfl
@[simp] theorem State.tookRun_rb (s : State) (l : Channel RunMove) : (s.tookRun l).rb = s.rb := rfl
@[simp] theorem State.tookRun_hostRuns (s : State) (l : Channel RunMove) : (s.tookRun l).hostRuns = l := rfl
@[simp] theorem State.tookRun_hostIn (s : State) (l : Channel RunMove) : (s.tookRun l).hostIn = s.hostIn := rfl
@[simp] theorem State.tookRun_hostOut (s : State) (l : Channel RunMove) : (s.tookRun l).hostOut = s.hostOut := rfl
@[simp] theorem State.tookRun_sent (s : State) (l : Channel RunMove) : (s.tookRun l).sent = s.sent := rfl

/-! ### `State.tookIn` -/

@[simp] theorem State.tookIn_cfg (s : State) (l : Channel InMove) : (s.tookIn l).cfg = s.cfg := rfl
@[simp] theorem State.tookIn_tape (s : State) (l : Channel InMove) : (s.tookIn l).tape = s.tape := rfl
@[simp] theorem State.tookIn_pc (s : State) (l : Channel InMove) : (s.tookIn l).pc = s.pc := rfl
@[simp] theorem State.tookIn_state (s : State) (l : Channel InMove) : (s.tookIn l).state = s.state := rfl
@[simp] theorem State.tookIn_fault (s : State) (l : Channel InMove) : (s.tookIn l).fault = s.fault := rfl
@[simp] theorem State.tookIn_cmd (s : State) (l : Channel InMove) : (s.tookIn l).cmd = s.cmd := rfl
@[simp] theorem State.tookIn_pend (s : State) (l : Channel InMove) : (s.tookIn l).pend = s.pend := rfl
@[simp] theorem State.tookIn_rb (s : State) (l : Channel InMove) : (s.tookIn l).rb = s.rb := rfl
@[simp] theorem State.tookIn_hostRuns (s : State) (l : Channel InMove) : (s.tookIn l).hostRuns = s.hostRuns := rfl
@[simp] theorem State.tookIn_hostIn (s : State) (l : Channel InMove) : (s.tookIn l).hostIn = l := rfl
@[simp] theorem State.tookIn_hostOut (s : State) (l : Channel InMove) : (s.tookIn l).hostOut = s.hostOut := rfl
@[simp] theorem State.tookIn_sent (s : State) (l : Channel InMove) : (s.tookIn l).sent = s.sent := rfl

/-! ### `State.tookOut` -/

@[simp] theorem State.tookOut_cfg (s : State) (l : Channel OutMove) : (s.tookOut l).cfg = s.cfg := rfl
@[simp] theorem State.tookOut_tape (s : State) (l : Channel OutMove) : (s.tookOut l).tape = s.tape := rfl
@[simp] theorem State.tookOut_pc (s : State) (l : Channel OutMove) : (s.tookOut l).pc = s.pc := rfl
@[simp] theorem State.tookOut_state (s : State) (l : Channel OutMove) : (s.tookOut l).state = s.state := rfl
@[simp] theorem State.tookOut_fault (s : State) (l : Channel OutMove) : (s.tookOut l).fault = s.fault := rfl
@[simp] theorem State.tookOut_cmd (s : State) (l : Channel OutMove) : (s.tookOut l).cmd = s.cmd := rfl
@[simp] theorem State.tookOut_pend (s : State) (l : Channel OutMove) : (s.tookOut l).pend = s.pend := rfl
@[simp] theorem State.tookOut_rb (s : State) (l : Channel OutMove) : (s.tookOut l).rb = s.rb := rfl
@[simp] theorem State.tookOut_hostRuns (s : State) (l : Channel OutMove) : (s.tookOut l).hostRuns = s.hostRuns := rfl
@[simp] theorem State.tookOut_hostIn (s : State) (l : Channel OutMove) : (s.tookOut l).hostIn = s.hostIn := rfl
@[simp] theorem State.tookOut_hostOut (s : State) (l : Channel OutMove) : (s.tookOut l).hostOut = l := rfl
@[simp] theorem State.tookOut_sent (s : State) (l : Channel OutMove) : (s.tookOut l).sent = s.sent := rfl

/-! ### `State.answered` -/

@[simp] theorem State.answered_cfg (s : State) : (s.answered).cfg = s.cfg := rfl
@[simp] theorem State.answered_tape (s : State) : (s.answered).tape = s.tape := rfl
@[simp] theorem State.answered_pc (s : State) : (s.answered).pc = s.pc := rfl
@[simp] theorem State.answered_state (s : State) : (s.answered).state = s.state := rfl
@[simp] theorem State.answered_fault (s : State) : (s.answered).fault = s.fault := rfl
@[simp] theorem State.answered_cmd (s : State) : (s.answered).cmd = s.cmd := rfl
@[simp] theorem State.answered_pend (s : State) : (s.answered).pend = none := rfl
@[simp] theorem State.answered_rb (s : State) : (s.answered).rb = s.rb := rfl
@[simp] theorem State.answered_hostRuns (s : State) : (s.answered).hostRuns = s.hostRuns := rfl
@[simp] theorem State.answered_hostIn (s : State) : (s.answered).hostIn = s.hostIn := rfl
@[simp] theorem State.answered_hostOut (s : State) : (s.answered).hostOut = s.hostOut := rfl
@[simp] theorem State.answered_sent (s : State) : (s.answered).sent = s.sent := rfl

end Sys2Proof.Machine
end

