-- ==== Sys2Proof/Laws/Ops.lean ====
section
/-! SUPPORT. What each shared operation can do, said once. -/

namespace Sys2Proof.Machine

theorem State.memRead_ok {s : State} {a : Int} {k : Access} {v : Int} :
    s.memRead a k = .ok v ↔ Memory.read s.tape a = some v := by
  unfold State.memRead
  split <;> simp_all

theorem State.memRead_error {s : State} {a : Int} {k : Access} {c : FaultCause} :
    s.memRead a k = .error c ↔ ¬ InRange s.tape.length a ∧ c = .memoryFault a k := by
  by_cases h : InRange s.tape.length a
  · obtain ⟨v, hv⟩ := Memory.read_inside h
    simp [State.memRead, hv, h]
  · simp [State.memRead, Memory.read_outside h, h, eq_comm]

theorem State.memWrite_inside {s : State} {a : Int} (v : Int) (h : InRange s.tape.length a) :
    s.memWrite a v = .ok { s with tape := s.tape.set a.toNat v } := by
  simp [State.memWrite, Memory.write_inside v h]

theorem State.memWrite_outside {s : State} {a : Int} (v : Int) (h : ¬ InRange s.tape.length a) :
    s.memWrite a v = .error (.memoryFault a .write) := by
  simp [State.memWrite, Memory.write_outside v h]

theorem State.resolveWrite_ok {s : State} {d : WOperand} {x : Int} :
    s.resolveWrite d = .ok x ↔ InRange s.tape.length x ∧ s.writeAddress d = x := by
  unfold State.resolveWrite
  split
  · simp only [Except.ok.injEq]
    constructor
    · rintro rfl; exact ⟨‹_›, rfl⟩
    · exact fun h => h.2
  · simp only [reduceCtorEq, false_iff]
    rintro ⟨h, rfl⟩
    exact absurd h ‹_›

theorem State.fit_word {s : State} {v : Int} (h : InWord s.cfg.width v) : s.fit v = .ok v := if_pos h

theorem State.fit_fault {s : State} {v : Int} (h : ¬ InWord s.cfg.width v) (hp : s.cfg.overflow = .fault) :
    s.fit v = .error (.arithmeticOverflow v) := by
  rw [State.fit, if_neg h, hp]

theorem State.fit_wrap {s : State} {v : Int} (h : ¬ InWord s.cfg.width v) (hp : s.cfg.overflow = .wrap) :
    s.fit v = .ok (wrap s.cfg.width v) := by
  rw [State.fit, if_neg h, hp]

/-- `wrap_W(v)` is congruent to `v` modulo `2^W`. -/
theorem wrap_congr (W : Nat) (v : Int) : (wrap W v - v) % 2 ^ W = 0 := by
  have h := Int.emod_eq_emod_iff_emod_sub_eq_zero.mp (Int.bmod_emod (x := v) (m := 2 ^ W))
  simpa [wrap] using h

/-- `wrap_W(v)` is a word. -/
theorem inWord_wrap (W : Nat) (v : Int) : InWord W (wrap W v) := by
  cases W with
  | zero => simp [InWord, wrap, Int.bmod_one]
  | succ n =>
    have hp : 0 < 2 ^ (n + 1) := Nat.two_pow_pos _
    have h1 := Int.le_bmod (x := v) hp
    have h2 := Int.bmod_lt (x := v) hp
    have e : (2 : Int) ^ (n + 1) = 2 * 2 ^ n := by rw [pow_succ]; ring
    simp only [InWord, wrap, Nat.add_sub_cancel]
    push_cast at h1 h2
    rw [e] at h1 h2
    omega

/-- A result that passes `Fit` is a word. -/
theorem State.fit_inWord {s : State} {v : Int} {r : Int} (h : s.fit v = .ok r) : InWord s.cfg.width r := by
  unfold State.fit at h
  split at h
  · cases h; assumption
  · split at h
    · cases h; exact inWord_wrap ..
    · cases h

/-! ### Ending a cycle -/

@[simp] theorem State.commit_ok (s t : State) : s.commit (.ok t) = .next t := rfl

@[simp] theorem State.commit_error (s : State) (c : FaultCause) : s.commit (.error c) = .next (s.raise c) := rfl

theorem State.commit_next {s t : State} {r : Except FaultCause State} (h : s.commit r = .next t) :
    r = .ok t ∨ ∃ c, r = .error c ∧ t = s.raise c := by
  cases r with
  | ok u => left; simpa using h
  | error c => right; exact ⟨c, rfl, by simpa using h.symm⟩

/-- The answer of a bind is that of its first part, where that fails, and else of its second. -/
theorem Except.bind_error_or_ok {α β ε : Type} {x : Except ε α} {f : α → Except ε β} {r : Except ε β} (h : x >>= f = r) :
    (∃ e, x = .error e ∧ r = .error e) ∨ ∃ a, x = .ok a ∧ f a = r := by
  cases x with
  | error e => left; exact ⟨e, rfl, h.symm⟩
  | ok a => right; exact ⟨a, rfl, h⟩

theorem Except.bind_ok_iff {α β ε : Type} {x : Except ε α} {f : α → Except ε β} {b : β} :
    x >>= f = .ok b ↔ ∃ a, x = .ok a ∧ f a = .ok b := by
  cases x with
  | error e => constructor <;> simp [bind, Except.bind]
  | ok a => simp [bind, Except.bind]

/-! ### The two shapes -/

/-- The three-operand shape where its operands resolve and its result is computed. -/
theorem State.compute_ok {s : State} {f : Int → Int → Except FaultCause Int} {a b : ROperand} {d : WOperand}
    {v0 v1 r : Int} {x : Int} (ha : s.resolveRead a = .ok v0) (hb : s.resolveRead b = .ok v1)
    (hd : s.resolveWrite d = .ok x) (hf : f v0 v1 = .ok r) :
    s.compute f a b d = .next { s with tape := s.tape.set x.toNat r, pc := s.pc + 4 } := by
  have hx := (State.resolveWrite_ok.mp hd).1
  simp only [State.compute, ha, hb, hd, hf, bind, Except.bind, State.memWrite_inside r hx]
  rfl

/-- The three-operand shape raises the first fault of its operands. -/
theorem State.compute_operand_error {s : State} {f : Int → Int → Except FaultCause Int} {a b : ROperand} {d : WOperand}
    {c : FaultCause}
    (h : s.resolveRead a = .error c ∨
      (∃ v0, s.resolveRead a = .ok v0 ∧ s.resolveRead b = .error c) ∨
      (∃ v0 v1, s.resolveRead a = .ok v0 ∧ s.resolveRead b = .ok v1 ∧ s.resolveWrite d = .error c)) :
    s.compute f a b d = .next (s.raise c) := by
  rcases h with h | ⟨v0, h0, h⟩ | ⟨v0, v1, h0, h1, h⟩ <;> simp [State.compute, *, bind, Except.bind]

/-- The three-operand shape where its operands resolve and its result faults. -/
theorem State.compute_result_error {s : State} {f : Int → Int → Except FaultCause Int} {a b : ROperand} {d : WOperand}
    {v0 v1 : Int} {x : Int} {c : FaultCause} (ha : s.resolveRead a = .ok v0) (hb : s.resolveRead b = .ok v1)
    (hd : s.resolveWrite d = .ok x) (hf : f v0 v1 = .error c) : s.compute f a b d = .next (s.raise c) := by
  simp [State.compute, ha, hb, hd, hf, bind, Except.bind]

/-- Everything the three-operand shape can do. -/
theorem State.compute_next {s t : State} {f : Int → Int → Except FaultCause Int} {a b : ROperand} {d : WOperand}
    (h : s.compute f a b d = .next t) :
    (∃ c, t = s.raise c ∧
      (s.resolveRead a = .error c ∨ s.resolveRead b = .error c ∨ s.resolveWrite d = .error c ∨ ∃ v0 v1, f v0 v1 = .error c)) ∨
    ∃ v0 v1 x r, s.resolveRead a = .ok v0 ∧ s.resolveRead b = .ok v1 ∧ s.resolveWrite d = .ok x ∧ f v0 v1 = .ok r ∧
      InRange s.tape.length x ∧ t = { s with tape := s.tape.set x.toNat r, pc := s.pc + 4 } := by
  cases ha : s.resolveRead a with
  | error c =>
    left; exact ⟨c, by simpa using ((State.compute_operand_error (.inl ha)).symm.trans h).symm, .inl rfl⟩
  | ok v0 =>
    cases hb : s.resolveRead b with
    | error c =>
      left
      exact ⟨c, by simpa using ((State.compute_operand_error (.inr (.inl ⟨v0, ha, hb⟩))).symm.trans h).symm, .inr (.inl rfl)⟩
    | ok v1 =>
      cases hd : s.resolveWrite d with
      | error c =>
        left
        exact ⟨c, by simpa using ((State.compute_operand_error (.inr (.inr ⟨v0, v1, ha, hb, hd⟩))).symm.trans h).symm,
          .inr (.inr (.inl rfl))⟩
      | ok x =>
        cases hf : f v0 v1 with
        | error c =>
          left
          exact ⟨c, by simpa using ((State.compute_result_error ha hb hd hf).symm.trans h).symm, .inr (.inr (.inr ⟨v0, v1, hf⟩))⟩
        | ok r =>
          right
          exact ⟨v0, v1, x, r, rfl, rfl, rfl, hf, (State.resolveWrite_ok.mp hd).1,
            by simpa using ((State.compute_ok ha hb hd hf).symm.trans h).symm⟩

/-- The jump shape where its operands resolve. -/
theorem State.branch_ok {s : State} {p : Int → Bool} {a b : ROperand} {v0 v1 : Int} (ha : s.resolveRead a = .ok v0)
    (hb : s.resolveRead b = .ok v1) : s.branch p a b = .next (if p v0 then s.jumpTo v1 else s.advance 3) := by
  simp [State.branch, ha, hb, bind, Except.bind, pure, Except.pure]

/-- Everything the jump shape can do. -/
theorem State.branch_next {s t : State} {p : Int → Bool} {a b : ROperand} (h : s.branch p a b = .next t) :
    (∃ c, t = s.raise c ∧ (s.resolveRead a = .error c ∨ s.resolveRead b = .error c)) ∨
    ∃ v0 v1, s.resolveRead a = .ok v0 ∧ s.resolveRead b = .ok v1 ∧ t = if p v0 then s.jumpTo v1 else s.advance 3 := by
  cases ha : s.resolveRead a with
  | error c => left; exact ⟨c, by simpa [State.branch, ha, bind, Except.bind] using h.symm, .inl rfl⟩
  | ok v0 =>
    cases hb : s.resolveRead b with
    | error c => left; exact ⟨c, by simpa [State.branch, ha, hb, bind, Except.bind] using h.symm, .inr rfl⟩
    | ok v1 => right; exact ⟨v0, v1, rfl, rfl, by simpa [State.branch_ok ha hb] using h.symm⟩

/-- A fault of a read operand is a memory fault of kind READ outside the tape. -/
theorem State.resolveRead_error {s : State} {o : ROperand} {c : FaultCause} (h : s.resolveRead o = .error c) :
    ∃ a, s.readAddress o = some a ∧ ¬ InRange s.tape.length a ∧ c = .memoryFault a .read := by
  unfold State.resolveRead at h
  split at h
  · exact ⟨_, ‹_›, State.memRead_error.mp h⟩
  · cases h

/-- A fault of a write operand is a memory fault of kind WRITE outside the tape. -/
theorem State.resolveWrite_error {s : State} {d : WOperand} {c : FaultCause} :
    s.resolveWrite d = .error c ↔
      ¬ InRange s.tape.length (s.writeAddress d) ∧ c = .memoryFault (s.writeAddress d) .write := by
  unfold State.resolveWrite
  split
  · simp_all
  · simp_all [eq_comm]

/-- A fault of `Fit` is an overflow. -/
theorem State.fit_error {s : State} {v : Int} {c : FaultCause} (h : s.fit v = .error c) : c = .arithmeticOverflow v := by
  unfold State.fit at h
  split at h
  · cases h
  · split at h
    · cases h
    · simpa using h.symm

end Sys2Proof.Machine
end

