-- ==== Sys2Proof/Laws/Exec.lean ====
section
/-! SUPPORT. What each instruction can do, said once: one inversion lemma a family, and what the completion of a port transaction can do. -/

namespace Sys2Proof.Machine

/-- Everything the completion of an input request can do. -/
theorem State.completeIn_next {s t : State} {a : Int} (h : s.completeIn a = .next t) :
    (∃ rest, s.inTurn = (.wait, rest) ∧ t = s.tookIn rest) ∨
    (∃ rest, s.inTurn = (.fail, rest) ∧ t = (s.tookIn rest).answered.raise (.portFailure .inp)) ∨
    ∃ v rest, s.inTurn = (.value v, rest) ∧
      ((InRange s.tape.length a ∧
          t = { s with tape := s.tape.set a.toNat v, pc := s.pc + 2, pend := none, hostIn := rest }) ∨
        (¬ InRange s.tape.length a ∧ t = (s.tookIn rest).answered.raise (.memoryFault a .write))) := by
  unfold State.completeIn at h
  split at h
  · left; exact ⟨_, ‹_›, by simpa using h.symm⟩
  · right; left; exact ⟨_, ‹_›, by simpa using h.symm⟩
  · rename_i v rest hv
    right; right
    refine ⟨v, rest, hv, ?_⟩
    by_cases hr : InRange s.tape.length a
    · left
      rw [State.memWrite_inside v (by simpa using hr)] at h
      exact ⟨hr, by simpa [bind, Except.bind, pure, Except.pure, State.advance, State.answered, State.tookIn] using h.symm⟩
    · right
      rw [State.memWrite_outside v (by simpa using hr)] at h
      exact ⟨hr, by simpa [bind, Except.bind] using h.symm⟩

/-- Everything the completion of an output request can do. -/
theorem State.completeOut_next {s t : State} (h : s.completeOut = .next t) :
    (∃ rest, s.outTurn = (.wait, rest) ∧ t = s.tookOut rest) ∨
    (∃ rest, s.outTurn = (.fail, rest) ∧ t = (s.tookOut rest).answered.raise (.portFailure .out)) ∨
    ∃ rest, s.outTurn = (.ack, rest) ∧ t = (s.tookOut rest).answered.advance 2 := by
  unfold State.completeOut at h
  split at h
  · left; exact ⟨_, ‹_›, by simpa using h.symm⟩
  · right; left; exact ⟨_, ‹_›, by simpa using h.symm⟩
  · right; right; exact ⟨_, ‹_›, by simpa using h.symm⟩

/-- Everything IN can do. -/
theorem execIn_next {s t : State} {d : WOperand} (h : execIn d s = .next t) :
    (s.pend = none ∧ ∃ c, s.resolveWrite d = .error c ∧ t = s.raise c) ∨
    (s.pend = none ∧ ∃ a, s.resolveWrite d = .ok a ∧ t = s.issue (.inp a) .inReq) ∨
    (s.pend ≠ none ∧ s.completePort = .next t) := by
  unfold execIn at h
  split at h
  · rename_i p hp; right; right; exact ⟨by simp [hp], h⟩
  · rename_i hp
    cases hr : s.resolveWrite d with
    | error c => left; exact ⟨hp, c, rfl, by simpa [hr, bind, Except.bind] using h.symm⟩
    | ok a => right; left; exact ⟨hp, a, rfl, by simpa [hr, bind, Except.bind, pure, Except.pure] using h.symm⟩

/-- Everything OUT can do. -/
theorem execOut_next {s t : State} {o : ROperand} (h : execOut o s = .next t) :
    (s.pend = none ∧ ∃ c, s.resolveRead o = .error c ∧ t = s.raise c) ∨
    (s.pend = none ∧ ∃ v, s.resolveRead o = .ok v ∧ t = s.issue (.out v) (.outReq v)) ∨
    (s.pend ≠ none ∧ s.completePort = .next t) := by
  unfold execOut at h
  split at h
  · rename_i p hp; right; right; exact ⟨by simp [hp], h⟩
  · rename_i hp
    cases hr : s.resolveRead o with
    | error c => left; exact ⟨hp, c, rfl, by simpa [hr, bind, Except.bind] using h.symm⟩
    | ok a => right; left; exact ⟨hp, a, rfl, by simpa [hr, bind, Except.bind, pure, Except.pure] using h.symm⟩

/-- Everything ARB can do. -/
theorem execArb_next {s t : State} {o : ROperand} (h : execArb o s = .next t) :
    (∃ c, t = s.raise c ∧ (s.resolveRead o = .error c ∨ ∃ v : Int, s.fit (s.rb + v) = .error c)) ∨
    ∃ v r, s.resolveRead o = .ok v ∧ s.fit (s.rb + v) = .ok r ∧ t = (s.setRb r).advance 2 := by
  unfold execArb at h
  cases hr : s.resolveRead o with
  | error c => left; exact ⟨c, by simpa [hr, bind, Except.bind] using h.symm, .inl rfl⟩
  | ok v =>
    cases hf : s.fit (s.rb + v) with
    | error c => left; exact ⟨c, by simpa [hr, hf, bind, Except.bind] using h.symm, .inr ⟨v, hf⟩⟩
    | ok r => right; exact ⟨v, r, rfl, hf, by simpa [hr, hf, bind, Except.bind, pure, Except.pure] using h.symm⟩

/-- The completion of a port transaction is that of its port. -/
theorem State.completePort_next {s t : State} (h : s.completePort = .next t) (hp : s.pend ≠ none) :
    (∃ a, s.pend = some (.inp a) ∧ s.completeIn a = .next t) ∨
    (∃ v, s.pend = some (.out v) ∧ s.completeOut = .next t) := by
  unfold State.completePort at h
  split at h
  · exact absurd ‹_› hp
  · exact .inl ⟨_, ‹_›, h⟩
  · exact .inr ⟨_, ‹_›, h⟩

/-- The instruction computes from two values and stores to `d`. -/
def StoresTo (i : Instr) (a b : ROperand) (d : WOperand) : Prop :=
  i = .add a b d ∨ i = .mul a b d ∨ i = .lt a b d ∨ i = .eq a b d

/-- Everything an instruction can do. -/
theorem exec_next {i : Instr} {s t : State} (h : exec i s = .next t) :
    (∃ c, t = s.raise c) ∨
    (∃ a b d x r, StoresTo i a b d ∧ s.resolveWrite d = .ok x ∧ InRange s.tape.length x ∧
      t = { s with tape := s.tape.set x.toNat r, pc := s.pc + 4 }) ∨
    (i = .halt ∧ t = s.halt) ∨
    (∃ a b, (i = .jt a b ∨ i = .jf a b) ∧ ((∃ v, s.resolveRead b = .ok v ∧ t = s.jumpTo v) ∨ t = s.advance 3)) ∨
    (∃ o r, i = .arb o ∧ t = (s.setRb r).advance 2) ∨
    (∃ d a, i = .inp d ∧ s.pend = none ∧ s.resolveWrite d = .ok a ∧ t = s.issue (.inp a) .inReq) ∨
    (∃ o v, i = .out o ∧ s.pend = none ∧ s.resolveRead o = .ok v ∧ t = s.issue (.out v) (.outReq v)) ∨
    (((∃ d, i = .inp d) ∨ ∃ o, i = .out o) ∧ s.pend ≠ none ∧ s.completePort = .next t) := by
  have cmp : ∀ (f : Int → Int → Except FaultCause Int) a b d, StoresTo i a b d → s.compute f a b d = .next t →
      (∃ c, t = s.raise c) ∨
        ∃ a b d x r, StoresTo i a b d ∧ s.resolveWrite d = .ok x ∧ InRange s.tape.length x ∧
          t = { s with tape := s.tape.set x.toNat r, pc := s.pc + 4 } := by
    intro f a b d hi h
    rcases State.compute_next h with ⟨c, rfl, -⟩ | ⟨v0, v1, x, r, -, -, hd, -, hx, rfl⟩
    · exact .inl ⟨c, rfl⟩
    · exact .inr ⟨a, b, d, x, r, hi, hd, hx, rfl⟩
  have br : ∀ f a b, s.branch f a b = .next t →
      (∃ c, t = s.raise c) ∨ (∃ v, s.resolveRead b = .ok v ∧ t = s.jumpTo v) ∨ t = s.advance 3 := by
    intro f a b h
    rcases State.branch_next h with ⟨c, rfl, h⟩ | ⟨v0, v1, -, hb, rfl⟩
    · exact .inl ⟨c, rfl⟩
    · right; split
      · exact .inl ⟨v1, hb, rfl⟩
      · exact .inr rfl
  cases i with
  | add a b d => exact (cmp _ a b d (.inl rfl) h).imp_right .inl
  | mul a b d => exact (cmp _ a b d (.inr (.inl rfl)) h).imp_right .inl
  | lt a b d => exact (cmp _ a b d (.inr (.inr (.inl rfl))) h).imp_right .inl
  | eq a b d => exact (cmp _ a b d (.inr (.inr (.inr rfl))) h).imp_right .inl
  | jt a b =>
    rcases br _ a b h with h | h
    · exact .inl h
    · exact .inr (.inr (.inr (.inl ⟨a, b, .inl rfl, h⟩)))
  | jf a b =>
    rcases br _ a b h with h | h
    · exact .inl h
    · exact .inr (.inr (.inr (.inl ⟨a, b, .inr rfl, h⟩)))
  | halt => right; right; left; exact ⟨rfl, by simpa [exec, execHalt] using h.symm⟩
  | inp d =>
    rcases execIn_next h with ⟨-, c, -, rfl⟩ | ⟨h1, a, h2, rfl⟩ | ⟨h1, h2⟩
    · exact .inl ⟨c, rfl⟩
    · exact .inr (.inr (.inr (.inr (.inr (.inl ⟨d, a, rfl, h1, h2, rfl⟩)))))
    · exact .inr (.inr (.inr (.inr (.inr (.inr (.inr ⟨.inl ⟨d, rfl⟩, h1, h2⟩))))))
  | out o =>
    rcases execOut_next h with ⟨-, c, -, rfl⟩ | ⟨h1, a, h2, rfl⟩ | ⟨h1, h2⟩
    · exact .inl ⟨c, rfl⟩
    · exact .inr (.inr (.inr (.inr (.inr (.inr (.inl ⟨o, a, rfl, h1, h2, rfl⟩))))))
    · exact .inr (.inr (.inr (.inr (.inr (.inr (.inr ⟨.inr ⟨o, rfl⟩, h1, h2⟩))))))
  | arb o =>
    rcases execArb_next h with ⟨c, rfl, -⟩ | ⟨v, r, -, -, rfl⟩
    · exact .inl ⟨c, rfl⟩
    · exact .inr (.inr (.inr (.inr (.inl ⟨o, r, rfl, rfl⟩))))

end Sys2Proof.Machine
end

