-- ==== Sys2Proof/Laws/Fetch.lean ====
section
/-! SUPPORT. What a fetch answers. -/

namespace Sys2Proof.Machine

theorem State.fetchRead_ok {s : State} {m : RMode} {a : Int} {o : ROperand} :
    s.fetchRead m a = .ok o ↔
      o.mode = m ∧ Memory.read s.tape a = some o.param ∧ ∃ v, s.resolveRead o = .ok v := by
  simp only [State.fetchRead, Except.bind_ok_iff, State.memRead_ok, pure, Except.pure, Except.ok.injEq]
  constructor
  · rintro ⟨p, hp, v, hv, rfl⟩; exact ⟨rfl, hp, v, hv⟩
  · rintro ⟨rfl, hp, v, hv⟩; exact ⟨o.param, hp, v, hv, rfl⟩

theorem State.fetchWrite_ok {s : State} {m : WMode} {a : Int} {o : WOperand} :
    s.fetchWrite m a = .ok o ↔
      o.mode = m ∧ Memory.read s.tape a = some o.param ∧ ∃ x, s.resolveWrite o = .ok x := by
  simp only [State.fetchWrite, Except.bind_ok_iff, State.memRead_ok, pure, Except.pure, Except.ok.injEq]
  constructor
  · rintro ⟨p, hp, v, hv, rfl⟩; exact ⟨rfl, hp, v, hv⟩
  · rintro ⟨rfl, hp, v, hv⟩; exact ⟨o.param, hp, v, hv, rfl⟩

/-- The cells of a list stand from an address on. -/
def CellsAt (t : List Int) (a : Int) : List Int → Prop
  | [] => True
  | v :: rest => Memory.read t a = some v ∧ CellsAt t (a + 1) rest

/-- Every operand of the instruction resolves. -/
def State.Resolves (s : State) : Instr → Prop
  | .add a b d => (∃ v, s.resolveRead a = .ok v) ∧ (∃ v, s.resolveRead b = .ok v) ∧ ∃ x, s.resolveWrite d = .ok x
  | .mul a b d => (∃ v, s.resolveRead a = .ok v) ∧ (∃ v, s.resolveRead b = .ok v) ∧ ∃ x, s.resolveWrite d = .ok x
  | .halt => True
  | .inp d => ∃ x, s.resolveWrite d = .ok x
  | .out a => ∃ v, s.resolveRead a = .ok v
  | .jt a b => (∃ v, s.resolveRead a = .ok v) ∧ ∃ v, s.resolveRead b = .ok v
  | .jf a b => (∃ v, s.resolveRead a = .ok v) ∧ ∃ v, s.resolveRead b = .ok v
  | .lt a b d => (∃ v, s.resolveRead a = .ok v) ∧ (∃ v, s.resolveRead b = .ok v) ∧ ∃ x, s.resolveWrite d = .ok x
  | .eq a b d => (∃ v, s.resolveRead a = .ok v) ∧ (∃ v, s.resolveRead b = .ok v) ∧ ∃ x, s.resolveWrite d = .ok x
  | .arb a => ∃ v, s.resolveRead a = .ok v

/-- The operand walk answers an instruction exactly if its parameter cells stand after the pc and its operands resolve. -/
theorem State.fetchOperands_ok {s : State} {h : Head} {i : Instr} :
    s.fetchOperands h = .ok i ↔ i.head = h ∧ CellsAt s.tape (s.pc + 1) i.params ∧ s.Resolves i := by
  have e2 : s.pc + 1 + 1 = s.pc + 2 := by omega
  have e3 : s.pc + 1 + 1 + 1 = s.pc + 3 := by omega
  constructor
  · intro hh
    cases h with
    | f3 op m0 m1 m2 =>
      simp only [State.fetchOperands, Except.bind_ok_iff, State.fetchRead_ok, State.fetchWrite_ok, pure, Except.pure,
        Except.ok.injEq] at hh
      obtain ⟨a, ⟨rfl, ha, va⟩, b, ⟨rfl, hb, vb⟩, d, ⟨rfl, hd, vd⟩, rfl⟩ := hh
      cases op <;> exact ⟨rfl, ⟨ha, e2 ▸ hb, e3 ▸ hd, trivial⟩, va, vb, vd⟩
    | f2 op m0 m1 =>
      simp only [State.fetchOperands, Except.bind_ok_iff, State.fetchRead_ok, pure, Except.pure, Except.ok.injEq] at hh
      obtain ⟨a, ⟨rfl, ha, va⟩, b, ⟨rfl, hb, vb⟩, rfl⟩ := hh
      cases op <;> exact ⟨rfl, ⟨ha, e2 ▸ hb, trivial⟩, va, vb⟩
    | f1 op m0 =>
      simp only [State.fetchOperands, Except.bind_ok_iff, State.fetchRead_ok, pure, Except.pure, Except.ok.injEq] at hh
      obtain ⟨a, ⟨rfl, ha, va⟩, rfl⟩ := hh
      cases op <;> exact ⟨rfl, ⟨ha, trivial⟩, va⟩
    | inp m0 =>
      simp only [State.fetchOperands, Except.bind_ok_iff, State.fetchWrite_ok, pure, Except.pure, Except.ok.injEq] at hh
      obtain ⟨a, ⟨rfl, ha, va⟩, rfl⟩ := hh
      exact ⟨rfl, ⟨ha, trivial⟩, va⟩
    | halt =>
      cases hh
      exact ⟨rfl, trivial, trivial⟩
  · rintro ⟨rfl, hc, hr⟩
    have e3' : s.pc + 2 + 1 = s.pc + 3 := by omega
    cases i <;> simp only [Instr.params, CellsAt, e2, e3', and_true, State.Resolves] at hc hr <;>
      simp only [State.fetchOperands, Instr.head, Except.bind_ok_iff, State.fetchRead_ok, State.fetchWrite_ok, pure, Except.pure]
    all_goals first
      | exact ⟨_, ⟨rfl, hc.1, hr.1⟩, _, ⟨rfl, hc.2.1, hr.2.1⟩, _, ⟨rfl, hc.2.2, hr.2.2⟩, rfl⟩
      | exact ⟨_, ⟨rfl, hc.1, hr.1⟩, _, ⟨rfl, hc.2, hr.2⟩, rfl⟩
      | exact ⟨_, ⟨rfl, hc, hr⟩, rfl⟩

/-- A fetch answers an instruction exactly if its encoding stands at the pc, the profile has it, and its operands resolve. -/
theorem State.fetch_ok {s : State} {i : Instr} :
    s.fetch = .ok i ↔
      i.wellFormed s.cfg.profile = true ∧ CellsAt s.tape s.pc (encode i) ∧ s.Resolves i := by
  simp only [State.fetch, Except.bind_ok_iff, State.memRead_ok, encode, CellsAt]
  constructor
  · rintro ⟨c, hc, hh⟩
    split at hh
    · cases hh
    · rename_i h he
      obtain ⟨rfl, hp, hr⟩ := State.fetchOperands_ok.mp hh
      obtain ⟨h1, h2⟩ := decodeHead_ok.mp he
      refine ⟨(Instr.wellFormed_iff ..).mpr h2, ⟨?_, hp⟩, hr⟩
      rw [hc, Option.some.injEq]
      rw [h1, i.headCell_eq]
  · rintro ⟨hw, ⟨hc, hp⟩, hr⟩
    refine ⟨_, hc, ?_⟩
    have he : decodeHead s.cfg.profile (i.headCell : Int) = .ok i.head :=
      decodeHead_ok.mpr ⟨by rw [i.headCell_eq], (Instr.wellFormed_iff ..).mp hw⟩
    rw [he]
    exact State.fetchOperands_ok.mpr ⟨rfl, hp, hr⟩

theorem cellsAt_inRange {t : List Int} {l : List Int} {a : Int} (h : CellsAt t a l) (hl : l ≠ []) :
    0 ≤ a ∧ a + l.length ≤ t.length := by
  induction l generalizing a with
  | nil => exact absurd rfl hl
  | cons v rest ih =>
    have hv := Memory.inRange_of_read h.1
    by_cases hr : rest = []
    · subst hr; simp; omega
    · have := ih h.2 hr
      simp only [List.length_cons]
      push_cast
      omega

/-- Cells that stand at the head of the rest of a tape stand in it from there on. -/
theorem cellsAt_of_drop {t l rest : List Int} {n : Nat} (h : t.drop n = l ++ rest) : CellsAt t n l := by
  induction l generalizing n with
  | nil => trivial
  | cons v l ih =>
    have hlt : n < t.length := by
      by_contra hn
      rw [List.drop_eq_nil_of_le (by omega)] at h; simp at h
    rw [List.drop_eq_getElem_cons hlt, List.cons_append, List.cons.injEq] at h
    refine ⟨?_, ?_⟩
    · have : InRange t.length (n : Int) := by constructor <;> omega
      simp [Memory.read, hlt, h.1]
    · exact_mod_cast ih h.2

/-- A fetched instruction lies within the tape. -/
theorem State.fetch_inRange {s : State} {i : Instr} (h : s.fetch = .ok i) : 0 ≤ s.pc ∧ s.pc + i.length ≤ s.tape.length := by
  have := cellsAt_inRange (State.fetch_ok.mp h).2.1 (by simp [encode])
  simpa [encode, Instr.length, Nat.add_comm] using this

/-- In BASE only ADD, MUL and HALT are fetched. -/
theorem State.fetch_base {s : State} {i : Instr} (h : s.fetch = .ok i) (hp : s.cfg.profile = .base) :
    (∃ a b d, i = .add a b d) ∨ (∃ a b d, i = .mul a b d) ∨ i = .halt := by
  have hw := (State.fetch_ok.mp h).1
  rw [hp] at hw
  cases i <;> simp_all [Instr.wellFormed]

/-- What a fetch reads: the tape, the pc, `rb` and the profile. -/
theorem State.fetch_congr {s t : State} (h1 : t.tape = s.tape) (h2 : t.pc = s.pc) (h3 : t.rb = s.rb) (h4 : t.cfg = s.cfg) :
    t.fetch = s.fetch := by
  cases s
  cases t
  dsimp only at h1 h2 h3 h4
  subst h1 h2 h3 h4
  rfl

end Sys2Proof.Machine
end

