-- ==== Sys2Proof/Laws/HostView.lean ====
section
/-! SUPPORT. The canonical decimal of an integer, and the dump as decimals with a separator between. -/

namespace Sys2Proof.Machine

/-- The decimal of an integer holds no comma. -/
theorem decimal_no_comma (v : Int) : ',' ∉ decimal v := by
  have h : ∀ n, ',' ∉ Nat.toDigits 10 n := by
    intro n hn
    have := Nat.isDigit_of_mem_toDigits (by omega) (by omega) hn
    revert this; decide
  unfold decimal
  split
  · simp [h]
  · exact h _

theorem decimal_ne_nil (v : Int) : decimal v ≠ [] := by
  unfold decimal
  split
  · simp
  · exact Nat.toDigits_ne_nil

theorem toDigits_injective {m n : Nat} (h : Nat.toDigits 10 m = Nat.toDigits 10 n) : m = n := by
  have := congrArg (fun l => Nat.ofDigitChars 10 l 0) h
  simpa [Nat.ofDigitChars_ten_toDigits] using this

/-- Each integer has its own decimal. -/
theorem decimal_injective {v w : Int} (h : decimal v = decimal w) : v = w := by
  have hm : ∀ n l, Nat.toDigits 10 n ≠ '-' :: l := by
    intro n l hh
    have := Nat.isDigit_of_mem_toDigits (b := 10) (n := n) (c := '-') (by omega) (by omega) (by rw [hh]; simp)
    revert this; decide
  unfold decimal at h
  split at h <;> split at h
  · have := toDigits_injective (List.cons.inj h).2; omega
  · exact absurd h.symm (hm _ _)
  · exact absurd h (hm _ _)
  · have := toDigits_injective h; omega

/-- A number of two digits or more is its quotient by ten and one digit. -/
theorem toDigits_append {n : Nat} (h : 10 ≤ n) :
    Nat.toDigits 10 n = Nat.toDigits 10 (n / 10) ++ [Nat.digitChar (n % 10)] := Nat.toDigits_of_base_le (by omega) h

/-- The cells of the dump are their decimals with the separator between. -/
theorem dumpCells_eq_intercalate (t : List Int) : dumpCells t = List.intercalate [',', ' '] (t.map decimal) := by
  induction t with
  | nil => rfl
  | cons v t ih =>
    cases t with
    | nil => simp [dumpCells, List.intercalate]
    | cons w t => rw [dumpCells, ih]; simp [List.intercalate]; simp

end Sys2Proof.Machine
end

