-- ==== Sys2Proof/Laws/PerInstr.lean ====
section
/-! SUPPORT. Facts proved once for each instruction. -/

/-- The encoding of an instruction has the length the opcode fixes, at most four cells (30_encoding.md R47). -/
def Sys2Proof.Laws.EncodedLength.Statement (i : Sys2Proof.Instr) : Prop :=
  (Sys2Proof.encode i).length = i.length ∧ 1 ≤ i.length ∧ i.length ≤ 4

namespace Sys2Proof.Laws.EncodedLength

theorem add (a b : ROperand) (d : WOperand) : Statement (.add a b d) := by simp [Statement, encode, Instr.length, Instr.params]

theorem mul (a b : ROperand) (d : WOperand) : Statement (.mul a b d) := by simp [Statement, encode, Instr.length, Instr.params]

theorem halt : Statement .halt := by simp [Statement, encode, Instr.length, Instr.params]

theorem inp (d : WOperand) : Statement (.inp d) := by simp [Statement, encode, Instr.length, Instr.params]

theorem out (a : ROperand) : Statement (.out a) := by simp [Statement, encode, Instr.length, Instr.params]

theorem jt (a b : ROperand) : Statement (.jt a b) := by simp [Statement, encode, Instr.length, Instr.params]

theorem jf (a b : ROperand) : Statement (.jf a b) := by simp [Statement, encode, Instr.length, Instr.params]

theorem lt (a b : ROperand) (d : WOperand) : Statement (.lt a b d) := by simp [Statement, encode, Instr.length, Instr.params]

theorem eq (a b : ROperand) (d : WOperand) : Statement (.eq a b d) := by simp [Statement, encode, Instr.length, Instr.params]

theorem arb (a : ROperand) : Statement (.arb a) := by simp [Statement, encode, Instr.length, Instr.params]

end Sys2Proof.Laws.EncodedLength
end

