-- ==== Sys2Proof/Laws/Step.lean ====
section
/-! SUPPORT. What a step can do, said once. -/

namespace Sys2Proof.Machine

theorem step_enabled {s : State} (h : s.Enabled) : step s = s.cycle := by
  obtain ⟨h1, h2, h3⟩ := h
  simp [step, h1, h2, h3]

theorem step_held {s : State} (h : s.Held) : step s = s.completePort := by
  obtain ⟨h1, h2, h3⟩ := h
  obtain ⟨p, hp⟩ := Option.ne_none_iff_exists'.mp h3
  simp [step, h1, h2, hp]

theorem step_finish {s : State} (h1 : s.cmd = .active) (h2 : s.Terminal) : step s = .next s.finishRun := by
  cases h : s.state with
  | running => exact absurd h h2
  | halted => simp [step, h1, h]
  | faulted => simp [step, h1, h]

theorem step_idle {s : State} (h : s.cmd = .idle) : step s = .next s.hostTurn := by simp [step, h]

theorem cycle_ok {s : State} {i : Instr} (h : s.fetch = .ok i) : s.cycle = exec i s := by simp [State.cycle, h]

theorem cycle_error {s : State} {c : FaultCause} (h : s.fetch = .error c) : s.cycle = .next (s.raise c) := by
  simp [State.cycle, h]

/-- The five kinds of step: the fault of a fetch, an instruction, the completion of a port transaction, the return of a run, a turn of the host. -/
theorem step_cases {s t : State} (h : step s = .next t) :
    (s.Enabled ∧ ∃ c, s.fetch = .error c ∧ t = s.raise c) ∨
    (s.Enabled ∧ ∃ i, s.fetch = .ok i ∧ exec i s = .next t) ∨
    (s.Held ∧ s.completePort = .next t) ∨
    (s.cmd = .active ∧ s.Terminal ∧ t = s.finishRun) ∨
    (s.cmd = .idle ∧ t = s.hostTurn) := by
  cases hc : s.cmd with
  | idle => rw [step_idle hc] at h; right; right; right; right; exact ⟨rfl, by simpa using h.symm⟩
  | active =>
    by_cases hs : s.state = .running
    · by_cases hp : s.pend = none
      · have he : s.Enabled := ⟨hc, hs, hp⟩
        rw [step_enabled he] at h
        cases hf : s.fetch with
        | error c => rw [cycle_error hf] at h; left; exact ⟨he, c, rfl, by simpa using h.symm⟩
        | ok i => rw [cycle_ok hf] at h; right; left; exact ⟨he, i, rfl, h⟩
      · have he : s.Held := ⟨hc, hs, hp⟩
        rw [step_held he] at h
        right; right; left; exact ⟨he, h⟩
    · rw [step_finish hc hs] at h
      right; right; right; left; exact ⟨rfl, hs, by simpa using h.symm⟩

/-- Everything a turn of the host can do. -/
theorem State.hostTurn_cases (s : State) :
    (∃ rest, s.runTurn = (.wait, rest) ∧ s.hostTurn = { s with hostRuns := rest }) ∨
    ∃ rest, s.runTurn = (.run, rest) ∧
      ((s.state = .running ∧ s.hostTurn = { s with hostRuns := rest, cmd := .active }) ∨
        (s.state = .halted ∧ s.hostTurn = { s with hostRuns := rest, sent := s.sent ++ [.runDone .success] }) ∨
        (s.state = .faulted ∧ s.hostTurn = { s with hostRuns := rest, sent := s.sent ++ [.runDone (.fault s.fault)] })) := by
  unfold State.hostTurn
  split
  · exact .inl ⟨_, ‹_›, rfl⟩
  · refine .inr ⟨_, ‹_›, ?_⟩
    cases hs : s.state <;> cases hr : s.cfg.rerun <;> simp [State.tookRun, State.startRun, State.report, hs]

/-- Everything the return of a run can do. -/
theorem State.finishRun_cases {s : State} (h : s.Terminal) :
    (s.state = .halted ∧ s.finishRun = { s with cmd := .idle, sent := s.sent ++ [.runDone .success] }) ∨
    (s.state = .faulted ∧ s.finishRun = { s with cmd := .idle, sent := s.sent ++ [.runDone (.fault s.fault)] }) := by
  cases hs : s.state with
  | running => exact absurd hs h
  | halted => left; simp [State.finishRun, State.report, hs]
  | faulted => right; simp [State.finishRun, State.report, hs]

/-- A rejected cell at the pc ends the cycle with InvalidOpcode. -/
theorem State.fetch_rejected {s : State} {c : Int} {r : Reject} (hc : Memory.read s.tape s.pc = some c)
    (h : decodeHead s.cfg.profile c = .error r) : s.fetch = .error (.invalidOpcode c) := by
  simp only [State.fetch, State.memRead_ok.mpr hc, bind, Except.bind, h]
  rfl

/-- One step of a run. -/
theorem run_succ {s u : State} (h : step s = .next u) (k : Nat) :
    Sys2Proof.core.run (k + 1) s = Sys2Proof.core.run k u := by
  have hu : Sys2Proof.core.step s = .next u := h
  simp only [Host.Core.run, hu]

end Sys2Proof.Machine
end

