-- ==== Sys2Proof/Laws/Words.lean ====
section
/-! SUPPORT. In a machine of words, what is read, computed and stored is a word. -/

namespace Sys2Proof.Machine

theorem Memory.inWord_of_read {W : Nat} {t : List Int} {a v : Int} (ht : ∀ v ∈ t, InWord W v)
    (h : Memory.read t a = some v) : InWord W v := by
  unfold Memory.read at h
  split at h
  · exact ht v (List.mem_of_getElem? h)
  · cases h

/-- A tape of words stays one when a word is stored. -/
theorem Memory.inWord_set {W : Nat} {t : List Int} {n : Nat} {r : Int} (ht : ∀ v ∈ t, InWord W v) (hr : InWord W r) :
    ∀ v ∈ t.set n r, InWord W v := by
  intro v hv
  rcases List.mem_or_eq_of_mem_set hv with h | rfl
  · exact ht v h
  · exact hr

/-- The value of a read operand is a word where its parameter is one. -/
theorem State.resolveRead_inWord {s : State} {o : ROperand} {v : Int} (hs : s.WordsFit) (ho : InWord s.cfg.width o.param)
    (h : s.resolveRead o = .ok v) : InWord s.cfg.width v := by
  unfold State.resolveRead at h
  split at h
  · exact Memory.inWord_of_read hs.tape (State.memRead_ok.mp h)
  · cases h; exact ho

/-- The parameters of a fetched instruction are words. -/
theorem State.fetch_params_inWord {s : State} {i : Instr} (hs : s.WordsFit) (h : s.fetch = .ok i) :
    ∀ p ∈ i.params, InWord s.cfg.width p := by
  have key : ∀ (l : List Int) (a : Int), CellsAt s.tape a l → ∀ p ∈ l, InWord s.cfg.width p := by
    intro l
    induction l with
    | nil => intro a _ p hp; cases hp
    | cons v l ih =>
      intro a hc p hp
      rcases List.mem_cons.mp hp with rfl | hp
      · exact Memory.inWord_of_read hs.tape hc.1
      · exact ih _ hc.2 p hp
  have hc := (State.fetch_ok.mp h).2.1
  exact fun p hp => key _ _ hc p (List.mem_cons_of_mem _ hp)

/-- 0 and 1 are words of any width of at least 2. -/
theorem inWord_truthWord {W : Nat} (h : 2 ≤ W) (b : Bool) : InWord W (truthWord b) := by
  obtain ⟨n, rfl⟩ : ∃ n, W = n + 2 := ⟨W - 2, by omega⟩
  have h1 : (0 : Int) < 2 ^ n := by positivity
  have h2 : (2 : Int) ^ (n + 1) = 2 * 2 ^ n := by rw [pow_succ]; ring
  simp only [InWord, Nat.add_succ_sub_one, h2]
  cases b <;> simp only [truthWord] <;> constructor <;> simp <;> omega

/-- A free host answers with words: its channel needs no condition. -/
theorem Channel.fits_free (W n : Nat) : Channel.Fits W ⟨[], .free n⟩ :=
  ⟨fun _ h => absurd h List.not_mem_nil, fun _ h => nomatch h⟩

/-- The host's turn on the input port gives a word where it gives a value, and leaves a channel of words. -/
theorem State.inTurn_fits {s : State} (hs : s.WordsFit) : s.inTurn.1.Fits s.cfg.width ∧ s.inTurn.2.Fits s.cfg.width := by
  obtain ⟨hscript, hevery⟩ := hs.hostIn
  unfold State.inTurn
  rcases hc : s.hostIn with ⟨_ | ⟨x, script⟩, m | n⟩ <;> rw [hc] at hscript hevery
  · exact ⟨hevery m rfl, hscript, hevery⟩
  · refine ⟨?_, hscript, by simp⟩
    rw [Channel.turn_free]
    cases Config.inMove n with
    | wait => trivial
    | value v => exact inWord_wrap ..
    | fail => trivial
  · exact ⟨hscript x (by simp), fun y hy => hscript y (List.mem_cons_of_mem _ hy), hevery⟩
  · exact ⟨hscript x (by simp), fun y hy => hscript y (List.mem_cons_of_mem _ hy), by simp⟩

/-- A fault keeps a machine of words one. -/
theorem State.raise_wordsFit {s : State} (hs : s.WordsFit) (c : FaultCause) : (s.raise c).WordsFit :=
  ⟨hs.width, hs.tape, hs.rb, by simp, hs.hostIn⟩

/-- The three-operand shape keeps a machine of words one, where what it computes is a word. -/
theorem State.compute_wordsFit {s t : State} {f : Int → Int → Except FaultCause Int} {a b : ROperand} {d : WOperand}
    (hs : s.WordsFit) (hf : ∀ x y r, f x y = .ok r → InWord s.cfg.width r) (h : s.compute f a b d = .next t) :
    t.WordsFit := by
  rcases State.compute_next h with ⟨c, rfl, -⟩ | ⟨v0, v1, x, r, -, -, -, hr, -, rfl⟩
  · exact State.raise_wordsFit hs c
  · exact ⟨hs.width, Memory.inWord_set hs.tape (hf _ _ _ hr), hs.rb, hs.pend, hs.hostIn⟩

end Sys2Proof.Machine
end

