-- ==== Sys2Proof/Tests/Slice0.lean ====
section
/-! SUPPORT. Tests of the model on small values, each expected result from spec/, and for every statement with hypotheses a witness that meets them. -/

namespace Sys2Proof.Tests

open Sys2Proof Sys2Proof.Machine

/-! ### Helpers -/

/-- A machine of the profile with a run in progress, before its first cycle. -/
def machine (p : Profile) (tape : List Int) : State :=
  { State.construct { Config.normative with profile := p } tape with cmd := .active }

/-- The same machine under `OVERFLOW_POLICY = wrap`. -/
def wrapping (p : Profile) (tape : List Int) : State :=
  { State.construct { Config.normative with profile := p, overflow := .wrap } tape with cmd := .active }

/-- The next state, where there is one. -/
def after : Result → Option State
  | .next t => some t
  | .fault _ => none
  | .refused _ => none

/-- The next state, or the state at reset. -/
def landed (o : Result) : State := (after o).getD State.reset

theorem next_of {o : Result} {t : State} (h : after o = some t) : o = .next t := by
  cases o <;> simp_all [after]

/-- The smallest word, `-2^63`. -/
def minWord : Int := -9223372036854775808

/-- The largest word, `2^63 - 1`. -/
def maxWord : Int := 9223372036854775807

/-- An operand in position mode. -/
def atCell (p : Int) : ROperand := ⟨.position, p⟩

/-- An immediate operand. -/
def imm (p : Int) : ROperand := ⟨.immediate, p⟩

/-- An operand in relative mode. -/
def rel (p : Int) : ROperand := ⟨.relative, p⟩

/-- A destination in position mode. -/
def toCell (p : Int) : WOperand := ⟨.position, p⟩

/-- A destination in relative mode. -/
def toRel (p : Int) : WOperand := ⟨.relative, p⟩

/-! ### Well-formedness: each check refuses an ill-formed term (30_encoding.md R51, R54) -/

theorem test_wf_base_refuses_immediate_first : (Instr.add (imm 1) (atCell 2) (toCell 3)).wellFormed .base = false := by decide
theorem test_wf_base_refuses_relative_second : (Instr.add (atCell 1) (rel 2) (toCell 3)).wellFormed .base = false := by decide
theorem test_wf_base_refuses_relative_dest : (Instr.add (atCell 1) (atCell 2) (toRel 3)).wellFormed .base = false := by decide
theorem test_wf_base_refuses_mul_immediate : (Instr.mul (imm 1) (atCell 2) (toCell 3)).wellFormed .base = false := by decide
theorem test_wf_base_refuses_mul_relative : (Instr.mul (atCell 1) (rel 2) (toCell 3)).wellFormed .base = false := by decide
theorem test_wf_base_refuses_mul_dest : (Instr.mul (atCell 1) (atCell 2) (toRel 3)).wellFormed .base = false := by decide
theorem test_wf_base_refuses_in : (Instr.inp (toCell 0)).wellFormed .base = false := by decide
theorem test_wf_base_refuses_out : (Instr.out (atCell 0)).wellFormed .base = false := by decide
theorem test_wf_base_refuses_jt : (Instr.jt (atCell 0) (atCell 0)).wellFormed .base = false := by decide
theorem test_wf_base_refuses_jf : (Instr.jf (atCell 0) (atCell 0)).wellFormed .base = false := by decide
theorem test_wf_base_refuses_lt : (Instr.lt (atCell 0) (atCell 0) (toCell 0)).wellFormed .base = false := by decide
theorem test_wf_base_refuses_eq : (Instr.eq (atCell 0) (atCell 0) (toCell 0)).wellFormed .base = false := by decide
theorem test_wf_base_refuses_arb : (Instr.arb (atCell 0)).wellFormed .base = false := by decide

/-! ### Decoding: cells written out digit by digit from 30_encoding.md R45, R49 and 45_ext_profile.md R85 -/

-- opcode 01
theorem test_decode_add : decode .base [1, 5, 6, 7] = .ok (.add (atCell 5) (atCell 6) (toCell 7), []) := by decide
-- modes 2 1 1 (operand 2 first), opcode 02
theorem test_decode_mul : decode .ext [21102, 5, -6, 7] = .ok (.mul (imm 5) (imm (-6)) (toRel 7), []) := by decide
-- modes 0 2 1: the hundreds digit is operand 0
theorem test_decode_add_modes : decode .ext [2101, 5, 6, 7] = .ok (.add (imm 5) (rel 6) (toCell 7), []) := by decide
-- opcode 99
theorem test_decode_halt : decode .base [99, 4] = .ok (.halt, [4]) := by decide
-- mode 2, opcode 03
theorem test_decode_in : decode .ext [203, 1] = .ok (.inp (toRel 1), []) := by decide
-- mode 1, opcode 04
theorem test_decode_out : decode .ext [104, -5] = .ok (.out (imm (-5)), []) := by decide
-- modes 1 1, opcode 05
theorem test_decode_jt : decode .ext [1105, 1, 4] = .ok (.jt (imm 1) (imm 4), []) := by decide
-- modes 2 1, opcode 06
theorem test_decode_jf : decode .ext [2106, 1, 4] = .ok (.jf (imm 1) (rel 4), []) := by decide
-- modes 0 1 1, opcode 07
theorem test_decode_lt : decode .ext [1107, -1, 0, 5] = .ok (.lt (imm (-1)) (imm 0) (toCell 5), []) := by decide
-- modes 2 0 2, opcode 08
theorem test_decode_eq : decode .ext [20208, 3, 4, 5] = .ok (.eq (rel 3) (atCell 4) (toRel 5), []) := by decide
-- mode 1, opcode 09
theorem test_decode_arb : decode .ext [109, 5] = .ok (.arb (imm 5), []) := by decide

-- V-DEC-4, V-DEC-3, V-DEC-9, V-DEC-6, V-MUL-7, V-DEC-7, V-HLT-2, X-IN-3
theorem test_reject_negative : decode .ext [-99] = .error .negativeCell := by decide
theorem test_reject_zero : decode .ext [0] = .error .unsupportedOpcode := by decide
theorem test_reject_98 : decode .ext [98] = .error .unsupportedOpcode := by decide
theorem test_reject_in_base : decode .base [3, 0, 99] = .error .unsupportedOpcode := by decide
theorem test_reject_mode_in_base : decode .base [1002, 4, 3, 4] = .error .illegalMode := by decide
theorem test_reject_immediate_dest : decode .ext [10001, 0, 0, 0] = .error .illegalMode := by decide
theorem test_reject_halt_mode : decode .ext [199] = .error .illegalMode := by decide
theorem test_reject_in_immediate : decode .ext [103, 0] = .error .illegalMode := by decide
-- mode digit 3, and a digit above the last operand (R85)
theorem test_reject_mode_three : decode .ext [301, 0, 0, 0] = .error .illegalMode := by decide
theorem test_reject_high_digit : decode .ext [1009, 0] = .error .illegalMode := by decide
theorem test_reject_truncated : decode .base [1, 0, 0] = .error .truncated := by decide

-- two cells: 104, then 7 counted on from bit 64
theorem test_tableWord_out : decodeTableWord 128 (104 + 7 * 2 ^ 64) = some (.out (imm 7)) := by decide
-- the operand cells above nbits are 0
theorem test_tableWord_short : decodeTableWord 64 1 = some (.add (atCell 0) (atCell 0) (toCell 0)) := by decide
theorem test_tableWord_reject : decodeTableWord 64 (2 ^ 64 - 99) = none := by decide
-- placed at reset, the next step runs it
theorem test_placed_halt : (landed (step (State.reset.withFetchWord 64 99))).state = .halted := by decide
theorem test_placed_arb : (landed (step (State.reset.withFetchWord 128 (109 + 7 * 2 ^ 64)))).rb = 7 := by decide

/-! ### One step of each instruction, with the results of spec/95_test_vectors.md -/

-- V-ADD-2
theorem test_add_signed :
    (landed (step (machine .base [1, 5, 6, 7, 99, -7, 3, 0]))).tape = [1, 5, 6, 7, 99, -7, 3, -4] := by decide
-- V-ADD-6
theorem test_add_overflow :
    (landed (step (machine .base [1, 5, 6, 7, 99, maxWord, 1, 0]))).fault = some ⟨.arithmeticOverflow (2 ^ 63), 0⟩ := by decide
-- V-MUL-3, wrap
theorem test_mul_wraps :
    (landed (step (wrapping .base [2, 5, 6, 7, 99, minWord, -1, 0]))).tape = [2, 5, 6, 7, 99, minWord, -1, minWord] := by decide
-- V-MUL-6
theorem test_mul_largest :
    (landed (step (machine .base [2, 5, 5, 6, 99, 3037000499, 0]))).tape =
      [2, 5, 5, 6, 99, 3037000499, 9223372030926249001] := by decide
-- V-HLT-1
theorem test_halt :
    let t := landed (step (machine .base [99]))
    t.state = .halted ∧ t.pc = 0 ∧ t.tape = [99] := by decide
-- X-IN-5, the completion
theorem test_in_relative :
    let t := landed (step { machine .ext [203, 1, 99] with pend := some (.inp 1), hostIn := ⟨[.value (-8)], .every .wait⟩ })
    t.tape = [203, -8, 99] ∧ t.pc = 2 ∧ t.pend = none := by decide
-- X-IN-4
theorem test_in_issues_nothing_on_fault :
    let t := landed (step (machine .ext [3, 5, 99]))
    t.fault = some ⟨.memoryFault 5 .write, 0⟩ ∧ t.sent = [] := by decide
-- X-OUT-2
theorem test_out_immediate :
    let t := landed (step (machine .ext [104, -5, 99]))
    t.sent = [.outReq (-5)] ∧ t.pc = 0 := by decide
-- X-OUT-4, the completion
theorem test_out_failure :
    let t := landed (step { machine .ext [4, 0, 99] with pend := some (.out 4), hostOut := ⟨[.fail], .every .wait⟩ })
    t.fault = some ⟨.portFailure .out, 0⟩ ∧ t.pc = 0 := by decide
-- X-JT-4
theorem test_jt_negative : (landed (step (machine .ext [1105, -3, 4, 99, 99]))).pc = 4 := by decide
-- X-JT-2
theorem test_jt_not_taken : (landed (step (machine .ext [1105, 0, 4, 99, 99]))).pc = 3 := by decide
-- X-JF-1
theorem test_jf_taken : (landed (step (machine .ext [1106, 0, 4, 99, 99]))).pc = 4 := by decide
-- X-JF-2
theorem test_jf_not_taken : (landed (step (machine .ext [1106, 1, 4, 99, 99]))).pc = 3 := by decide
-- X-LT-3
theorem test_lt_signed :
    (landed (step (machine .ext [1107, minWord, maxWord, 5, 99, 7]))).tape = [1107, minWord, maxWord, 5, 99, 1] := by decide
-- X-LT-2
theorem test_lt_equal : (landed (step (machine .ext [1107, 3, 3, 5, 99, 7]))).tape = [1107, 3, 3, 5, 99, 0] := by decide
-- X-EQ-2
theorem test_eq_same_cell : (landed (step (machine .ext [8, 5, 5, 6, 99, -2, 7]))).tape = [8, 5, 5, 6, 99, -2, 1] := by decide
-- R93: unequal values write 0
theorem test_eq_unequal : (landed (step (machine .ext [1108, 8, 9, 5, 99, 7]))).tape = [1108, 8, 9, 5, 99, 0] := by decide
-- X-ARB-4
theorem test_arb_old_base : (landed (step (machine .ext [209, 0, 99]))).rb = 209 := by decide
-- X-ARB-3, its second cycle
theorem test_arb_overflow :
    let t := landed (step { machine .ext [109, maxWord, 109, 1, 99] with pc := 2, rb := maxWord })
    t.fault = some ⟨.arithmeticOverflow (2 ^ 63), 2⟩ ∧ t.rb = maxWord := by decide

/-! ### The width is a parameter (00_scope.md R6, R7, R13): at 8 bits, 127 fits and 128 does not -/

theorem test_width_eight_fits :
    State.fit { machine .base [] with cfg := { Config.normative with width := 8 } } 127 = .ok 127 := by decide
theorem test_width_eight_faults :
    State.fit { machine .base [] with cfg := { Config.normative with width := 8 } } 128 =
      .error (.arithmeticOverflow 128) := by decide
theorem test_width_eight_wraps :
    State.fit { machine .base [] with cfg := { Config.normative with width := 8, overflow := .wrap } } 128 = .ok (-128) := by
  decide

/-! ### The order of faults -/

-- V-ADD-13
theorem test_first_operand_first :
    (landed (step (machine .base [1, 7, 0, 9, 99]))).fault = some ⟨.memoryFault 7 .read, 0⟩ := by decide
-- V-ADD-12
theorem test_operand_cell :
    (landed (step (machine .base [1, 0, 0]))).fault = some ⟨.memoryFault 3 .operand, 0⟩ := by decide

/-! ### Dump, status and rerun -/

-- V-DMP-1, V-DMP-2, V-DMP-5
theorem test_dump_empty : (machine .base []).dump = "[]" := by decide
theorem test_dump : (machine .base [-1, 0, 42]).dump = "[-1, 0, 42]" := by decide
theorem test_dump_extremes :
    (machine .base [minWord, maxWord]).dump = "[-9223372036854775808, 9223372036854775807]" := by decide
-- V-ADD-11, V-ST-2
theorem test_status_memory : (landed (step (machine .base [1, 0, 0, 5, 99]))).statusBlock = ⟨2, 2, 0, 5, 3, 0⟩ := by decide
theorem test_status_overflow :
    (landed (step (machine .base [1, 5, 6, 7, 99, maxWord, 1, 0]))).statusBlock = ⟨2, 4, 0, 0, 0, 0⟩ := by decide
-- V-RR-2, the second run
theorem test_rerun_reports :
    (landed (step { machine .base [0] with
      cmd := .idle, state := .faulted, fault := some ⟨.invalidOpcode 0, 0⟩, hostRuns := ⟨[.run], .every .wait⟩ })).sent =
      [.runDone (.fault (some ⟨.invalidOpcode 0, 0⟩))] := by decide

/-! ### Witnesses: concrete values that meet the hypotheses of each statement -/

theorem witness_EncodeThenDecode :
    (Instr.add (atCell minWord) (atCell maxWord) (toCell (-1))).wellFormed .base = true ∧
      (Instr.eq (imm minWord) (rel maxWord) (toRel (-1))).wellFormed .ext = true ∧
      Instr.halt.wellFormed .base = true := by decide

theorem witness_DecodeThenEncode :
    decode .base [1, 5, 6, 7, 8] = .ok (.add (atCell 5) (atCell 6) (toCell 7), [8]) ∧
      decode .ext [22208, 5, 6, 7] = .ok (.eq (rel 5) (rel 6) (toRel 7), []) := by decide

/-- The cells beside 1, 2 and 99, and the first cells with a mode digit. -/
theorem witness_BaseAcceptsThreeCells :
    ∀ c : Int, c = 0 ∨ c = 3 ∨ c = 98 ∨ c = 100 ∨ c = 101 ∨ c = 199 ∨ c = -1 →
      (machine .base [c]).Enabled ∧ (machine .base [c]).cfg.profile = .base ∧
        Memory.read (machine .base [c]).tape 0 = some c ∧ c ≠ 1 ∧ c ≠ 2 ∧ c ≠ 99 := by
  rintro c (rfl | rfl | rfl | rfl | rfl | rfl | rfl) <;> decide

theorem witness_ExtAcceptsLegalModes :
    Claims.signature (22201 % 100) = some [.r, .r, .w] ∧ Claims.ModesLegal 22201 [.r, .r, .w] ∧
      ¬ Claims.ModesLegal 10001 [.r, .r, .w] := by
  refine ⟨rfl, ⟨by decide, ?_, by decide⟩, fun h => h.2.1 2 rfl (by decide)⟩
  intro i hi
  match i, hi with
  | 2, _ => decide

theorem witness_NegativeCellIsInvalid :
    ∀ c : Int, c = -1 ∨ c = minWord →
      c < 0 ∧ (machine .ext [c]).Enabled ∧ Memory.read (machine .ext [c]).tape 0 = some c := by
  rintro c (rfl | rfl) <;> decide

/-- A rejected cell, an accepted one, and an accepted one whose operand faults. -/
theorem witness_InvalidOpcodeExactlyOnRejectedCell :
    (∀ c : Int, c = 0 ∨ c = 99 ∨ c = 1 →
      (machine .base [c]).Enabled ∧ Memory.read (machine .base [c]).tape 0 = some c) ∧
    decodeHead .base 0 = .error .unsupportedOpcode ∧ decodeHead .base 99 = .ok .halt := by
  refine ⟨?_, by decide, by decide⟩
  rintro c (rfl | rfl | rfl) <;> decide

theorem witness_LengthFromOpcode :
    decode .base (1 :: [5, 6, 7]) = .ok (.add (atCell 5) (atCell 6) (toCell 7), []) ∧
      decode .ext (22101 :: [5, 6, 7, 8]) = .ok (.add (imm 5) (rel 6) (toRel 7), [8]) ∧
      (1 : Int) % 100 = (22101 : Int) % 100 := by decide

/-- The instruction fills the tape to its last cell. -/
theorem witness_StepRunsDecodedInstr :
    let s := { machine .base [99, 1, 0, 0, 0] with pc := 1 }
    s.Enabled ∧ 0 ≤ s.pc ∧
      decode s.cfg.profile (s.tape.drop s.pc.toNat) = .ok (.add (atCell 0) (atCell 0) (toCell 0), []) := by decide

/-- Held on an input request, with a host that makes these moves and no more. -/
def heldIn (moves : List InMove) : State :=
  { machine .ext [3, 0, 99] with pend := some (.inp 0), sent := [.inReq], hostIn := ⟨moves, .every .wait⟩ }

/-- Held on an output request, with a host that makes these moves and no more. -/
def heldOut (moves : List OutMove) : State :=
  { machine .ext [4, 0, 99] with pend := some (.out 4), sent := [.outReq 4], hostOut := ⟨moves, .every .wait⟩ }

theorem heldIn_inv : (heldIn []).Inv :=
  ⟨by decide, ⟨rfl, rfl, toCell 0, by decide, by decide⟩, by decide, by decide,
    by decide, by decide, by decide, by rintro p ⟨⟩; trivial, by rintro m ⟨⟩, by rintro m ⟨⟩; trivial⟩

theorem heldOut_inv : (heldOut []).Inv :=
  ⟨by decide, ⟨rfl, rfl, atCell 0, by decide, by decide⟩, by decide, by decide,
    by decide, by decide, by decide, by rintro p ⟨⟩; decide, by rintro m ⟨⟩, by rintro m ⟨⟩⟩

theorem witness_HeldStepRunsPortInstr :
    ((heldIn []).Inv ∧ (heldIn []).Held) ∧ (heldOut []).Inv ∧ (heldOut []).Held :=
  ⟨⟨heldIn_inv, by decide⟩, heldOut_inv, by decide⟩

/-- The pc at -1 and at `N`, and on the empty tape; and at both ends of the tape. -/
theorem witness_FetchOutsideTapeFaults :
    (∀ pc : Int, pc = -1 ∨ pc = 2 →
      State.Enabled { machine .base [98, 99] with pc := pc } ∧ ¬ InRange 2 pc) ∧
    ((machine .base []).Enabled ∧ ¬ InRange (machine .base []).tape.length (machine .base []).pc) ∧
    (∀ pc : Int, pc = 0 ∨ pc = 1 →
      State.Enabled { machine .base [98, 99] with pc := pc } ∧ InRange 2 pc) ∧
    decodeHead .base 98 = .error .unsupportedOpcode ∧ decodeHead .base 99 = .ok .halt := by
  refine ⟨?_, by decide, ?_, by decide, by decide⟩
  · rintro pc (rfl | rfl) <;> decide
  · rintro pc (rfl | rfl) <;> decide

/-- V-ADD-12, V-ADD-13 and V-ADD-1: a missing operand cell, two bad addresses, none. -/
theorem witness_FirstFailingCheckNamesFault :
    let h := Head.f3 .add .position .position .position
    decodeHead .base 1 = .ok h ∧
    ((machine .base [1, 0, 0]).Enabled ∧ Memory.read (machine .base [1, 0, 0]).tape 0 = some 1 ∧
      Claims.firstFailing (Claims.operandChecks (machine .base [1, 0, 0]) h) = some (.memoryFault 3 .operand)) ∧
    ((machine .base [1, 7, 0, 9, 99]).Enabled ∧ Memory.read (machine .base [1, 7, 0, 9, 99]).tape 0 = some 1 ∧
      Claims.firstFailing (Claims.operandChecks (machine .base [1, 7, 0, 9, 99]) h) = some (.memoryFault 7 .read)) ∧
    ((machine .base [1, 5, 6, 7, 99, 2, 3, 0]).Enabled ∧
      Memory.read (machine .base [1, 5, 6, 7, 99, 2, 3, 0]).tape 0 = some 1 ∧
      Claims.firstFailing (Claims.operandChecks (machine .base [1, 5, 6, 7, 99, 2, 3, 0]) h) = none) := by decide

/-- A tape of two cells and a base of -1: parameters at both ends of the range and just outside it. -/
theorem witness_OperandModes :
    let s := { machine .ext [7, 8] with rb := -1 }
    Memory.read s.tape (0 : Int) = some 7 ∧ Memory.read s.tape (s.rb + (2 : Int)) = some 8 ∧
      ¬ InRange s.tape.length (2 : Int) ∧ ¬ InRange s.tape.length (-1 : Int) ∧
      ¬ InRange s.tape.length (s.rb + (3 : Int)) ∧ ¬ InRange s.tape.length (s.rb + (0 : Int)) ∧
      InRange s.tape.length (1 : Int) ∧ InRange s.tape.length (s.rb + (1 : Int)) := by decide

theorem witness_AccessFaultsExactlyOutsideTape :
    ¬ InRange (machine .base [7, 8]).tape.length (-1) ∧ ¬ InRange (machine .base [7, 8]).tape.length 2 ∧
      InRange (machine .base [7, 8]).tape.length 0 ∧ InRange (machine .base [7, 8]).tape.length 1 := by decide

theorem witness_ReadAfterWrite :
    Memory.write [7, 8] 1 9 = some [7, 9] ∧ (0 : Int) ≠ 1 ∧ Memory.write [7, 8] 0 9 = some [9, 8] := by decide

theorem witness_TapeLengthIsFixed :
    (∃ t, step (machine .base [1, 0, 0, 0, 99]) = .next t) ∧
      (machine .base []).Enabled ∧ (machine .base []).tape = [] :=
  ⟨⟨landed (step (machine .base [1, 0, 0, 0, 99])), next_of (by decide)⟩, by decide, by decide⟩

/-- P3b: the stored 14 is rejected when it is fetched; V-ADD-14: the stored 99 decodes; a wrapped sum; a comparison; an input value. -/
theorem witness_StoredCellIsFetchedNext :
    (let s : State := machine .base [1, 4, 4, 4, 7];
      Claims.Stores (.add (atCell 4) (atCell 4) (toCell 4)) (atCell 4) (atCell 4) (toCell 4) ∧
      s.Enabled ∧ s.fetch = .ok (.add (atCell 4) (atCell 4) (toCell 4)) ∧ s.resolveRead (atCell 4) = .ok 7 ∧
      s.resolveWrite (toCell 4) = .ok (s.pc + 4) ∧ Claims.Computes s.cfg 7 7 14 (.add (atCell 4) (atCell 4) (toCell 4)) ∧
      decodeHead s.cfg.profile 14 = .error .unsupportedOpcode) ∧
    (let s : State := machine .base [1, 9, 10, 4, 0, 0, 0, 0, 99, 90, 9];
      s.Enabled ∧ s.fetch = .ok (.add (atCell 9) (atCell 10) (toCell 4)) ∧
      Claims.Computes s.cfg 90 9 99 (.add (atCell 9) (atCell 10) (toCell 4)) ∧ decodeHead s.cfg.profile 99 = .ok .halt) ∧
    (let s : State := wrapping .base [1, 5, 6, 4, 0, maxWord, 1];
      s.Enabled ∧ s.fetch = .ok (.add (atCell 5) (atCell 6) (toCell 4)) ∧ s.resolveWrite (toCell 4) = .ok (s.pc + 4) ∧
      Claims.Computes s.cfg maxWord 1 minWord (.add (atCell 5) (atCell 6) (toCell 4))) ∧
    Claims.Computes Config.normative 3 4 1 (.lt (imm 3) (imm 4) (toCell 4)) ∧
    (let s : State := { machine .ext [3, 2, 99] with pend := some (.inp 2), hostIn := ⟨[.value (-8)], .every .wait⟩ };
      s.Held ∧ s.pend = some (.inp (s.pc + 2)) ∧ InRange s.tape.length (s.pc + 2) ∧ s.inTurn = (.value (-8), ⟨[], .every .wait⟩)) :=
  ⟨⟨.inl rfl, by decide, by decide, by decide, by decide, ⟨by decide, by decide, by decide⟩, by decide⟩,
    ⟨by decide, by decide, ⟨by decide, by decide, by decide⟩, by decide⟩,
    ⟨by decide, by decide, by decide, ⟨by decide, by decide, by decide⟩⟩, rfl, by decide⟩

/-- The largest sum and product in `Word`, and the first ones outside, under both policies. -/
theorem witness_ArithThroughFit :
    let s := machine .base [maxWord, 0, 1, -1, minWord, -1]
    let w := wrapping .base [maxWord, 0, 1, -1, minWord, -1]
    (s.resolveRead (atCell 0) = .ok maxWord ∧ s.resolveRead (atCell 1) = .ok 0 ∧ s.resolveWrite (toCell 5) = .ok 5 ∧
      InWord 64 (maxWord + (0 : Int))) ∧
    (s.resolveRead (atCell 2) = .ok 1 ∧ s.resolveRead (atCell 4) = .ok minWord ∧ InWord 64 ((1 : Int) * minWord)) ∧
    (¬ InWord 64 (maxWord + (1 : Int)) ∧ s.cfg.overflow = .fault) ∧
    (s.resolveRead (atCell 3) = .ok (-1) ∧ ¬ InWord 64 (minWord * (-1 : Int))) ∧
    (w.resolveRead (atCell 0) = .ok maxWord ∧ w.resolveRead (atCell 2) = .ok 1 ∧ w.resolveWrite (toCell 5) = .ok 5 ∧
      w.cfg.overflow = .wrap) := by decide

/-- Each operand is the first that does not resolve. -/
theorem witness_OperandFaultComesFirst :
    let s := machine .base [7, 8]
    Claims.Stores (.add (atCell 2) (atCell 2) (toCell 2)) (atCell 2) (atCell 2) (toCell 2) ∧
    s.resolveRead (atCell 2) = .error (.memoryFault 2 .read) ∧
    (s.resolveRead (atCell 0) = .ok 7 ∧ s.resolveRead (atCell (-1)) = .error (.memoryFault (-1) .read)) ∧
    (s.resolveRead (atCell 0) = .ok 7 ∧ s.resolveRead (atCell 1) = .ok 8 ∧
      s.resolveWrite (toCell 2) = .error (.memoryFault 2 .write)) :=
  ⟨.inl rfl, by decide, by decide, by decide⟩

theorem witness_HaltStopsInPlace :
    ((machine .base [99]).Enabled ∧ Memory.read (machine .base [99]).tape 0 = some 99) ∧
    (∃ t, step { machine .base [99] with state := .halted } = .next t) ∧
    ((machine .ext [199]).Enabled ∧ Memory.read (machine .ext [199]).tape 0 = some 199 ∧
      (199 : Int) % 100 = 99 ∧ (199 : Int) ≠ 99) ∧
    ((machine .base []).Enabled ∧ ¬ InRange (machine .base []).tape.length (machine .base []).pc) :=
  ⟨by decide, ⟨landed (step { machine .base [99] with state := .halted }), next_of (by decide)⟩, by decide, by decide⟩

/-- The last cell of the tape as the destination, and the first address outside. -/
theorem witness_InIssuesThenCompletes :
    ((machine .ext [3, 2, 99]).pend = none ∧ (machine .ext [3, 2, 99]).resolveWrite (toCell 2) = .ok 2) ∧
    (machine .ext [3, 3, 99]).resolveWrite (toCell 3) = .error (.memoryFault 3 .write) ∧
    ((heldIn [.value 7]).pend = some (.inp 0) ∧ InRange (heldIn [.value 7]).tape.length 0 ∧
      (heldIn [.value 7]).inTurn = (.value 7, ⟨[], .every .wait⟩)) ∧
    ((heldIn [.fail]).pend = some (.inp 0) ∧ (heldIn [.fail]).inTurn = (.fail, ⟨[], .every .wait⟩)) := by decide

theorem witness_OutIssuesThenCompletes :
    ((machine .ext [4, 2, 99]).pend = none ∧ (machine .ext [4, 2, 99]).resolveRead (atCell 2) = .ok 99) ∧
    (machine .ext [4, 3, 99]).resolveRead (atCell 3) = .error (.memoryFault 3 .read) ∧
    ((heldOut [.ack]).pend = some (.out 4) ∧ (heldOut [.ack]).outTurn = (.ack, ⟨[], .every .wait⟩)) ∧
    ((heldOut [.fail]).pend = some (.out 4) ∧ (heldOut [.fail]).outTurn = (.fail, ⟨[], .every .wait⟩)) := by decide

/-- Conditions 0, 1 and -1; a target one past the tape; each operand unresolved. -/
theorem witness_JumpsTakeTarget :
    let s := machine .ext [1105, 1, 4, 99]
    (s.resolveRead (imm 1) = .ok 1 ∧ s.resolveRead (imm 4) = .ok 4 ∧ (1 : Int) ≠ 0) ∧
    (s.resolveRead (imm (-1)) = .ok (-1) ∧ (-1 : Int) ≠ 0) ∧
    (s.resolveRead (imm 0) = .ok 0 ∧ (0 : Int) = 0) ∧
    (s.Enabled ∧ ¬ InRange s.tape.length (4 : Int)) ∧
    s.resolveRead (atCell 4) = .error (.memoryFault 4 .read) := by decide

theorem witness_ComparisonsWriteTruth :
    let s := machine .ext [minWord, maxWord, 7]
    s.resolveRead (atCell 0) = .ok minWord ∧ s.resolveRead (atCell 1) = .ok maxWord ∧
      s.resolveWrite (toCell 2) = .ok 2 := by decide

theorem witness_ArbAdjustsBase :
    let s := { machine .ext [7] with rb := maxWord }
    let w := { wrapping .ext [7] with rb := maxWord }
    s.resolveRead (atCell 1) = .error (.memoryFault 1 .read) ∧
    (s.resolveRead (imm 0) = .ok 0 ∧ InWord s.cfg.width (s.rb + (0 : Int))) ∧
    (s.resolveRead (imm 1) = .ok 1 ∧ ¬ InWord s.cfg.width (s.rb + (1 : Int)) ∧ s.cfg.overflow = .fault) ∧
    (w.resolveRead (imm 1) = .ok 1 ∧ ¬ InWord w.cfg.width (w.rb + (1 : Int)) ∧ w.cfg.overflow = .wrap) := by decide

/-- V-DEC-2: the pc moves past the last cell. -/
theorem witness_PcMovesByLength :
    let i := Instr.add (atCell 0) (atCell 0) (toCell 0)
    i ≠ .halt ∧ (∀ a b, i ≠ .jt a b) ∧ (∀ a b, i ≠ .jf a b) ∧
      ∃ t, exec i (machine .base [1, 0, 0, 0]) = .next t ∧
        t.state = .running ∧ t.pend = none ∧ t.cmd = .active ∧ ¬ InRange t.tape.length t.pc :=
  ⟨by simp, by simp, by simp, landed (exec (.add (atCell 0) (atCell 0) (toCell 0)) (machine .base [1, 0, 0, 0])),
    next_of (by decide), by decide⟩

theorem witness_StoringFrame :
    ∃ t, Claims.Stores (.mul (imm 3) (rel 0) (toRel 0)) (imm 3) (rel 0) (toRel 0) ∧
      exec (.mul (imm 3) (rel 0) (toRel 0)) (machine .ext [7, 8]) = .next t ∧
      (machine .ext [7, 8]).resolveWrite (toRel 0) = .ok 0 ∧ t.tape = [21, 8] :=
  ⟨landed (exec (.mul (imm 3) (rel 0) (toRel 0)) (machine .ext [7, 8])), .inr (.inl rfl), next_of (by decide), by decide⟩

theorem witness_NonStoringFrame :
    (∃ t, exec (.jf (imm 0) (imm 1)) (machine .ext [7, 8]) = .next t ∧ t.pc = 1) ∧
    (∃ t, exec .halt (machine .ext [7, 8]) = .next t) ∧
    (∃ t, exec (.arb (imm 1)) (machine .ext [7, 8]) = .next t ∧ t.rb = 1) ∧
    (∃ t, exec (.out (imm 1)) (machine .ext [7, 8]) = .next t ∧ (machine .ext [7, 8]).pend = none ∧ t.pend = some (.out 1)) :=
  ⟨⟨landed (exec (.jf (imm 0) (imm 1)) (machine .ext [7, 8])), next_of (by decide), by decide⟩,
    ⟨landed (exec .halt (machine .ext [7, 8])), next_of (by decide)⟩,
    ⟨landed (exec (.arb (imm 1)) (machine .ext [7, 8])), next_of (by decide), by decide⟩,
    ⟨landed (exec (.out (imm 1)) (machine .ext [7, 8])), next_of (by decide), by decide⟩⟩

theorem witness_InFrame :
    (∃ t, exec (.inp (toCell 0)) (heldIn [.value 7]) = .next t ∧ t.tape = [7, 0, 99]) ∧
      (heldIn [.value 7]).pend = some (.inp 0) :=
  ⟨⟨landed (exec (.inp (toCell 0)) (heldIn [.value 7])), next_of (by decide), by decide⟩, by decide⟩

theorem witness_DestinationIsNotRead :
    let s := machine .ext [7, 8]
    ∃ t, Claims.Stores (.lt (imm 3) (atCell 0) (toCell 1)) (imm 3) (atCell 0) (toCell 1) ∧
      s.resolveWrite (toCell 1) = .ok 1 ∧ s.readAddress (imm 3) ≠ some 1 ∧ s.readAddress (atCell 0) ≠ some 1 ∧
      exec (.lt (imm 3) (atCell 0) (toCell 1)) s = .next t ∧ t.pc = s.pc + 4 :=
  ⟨landed (exec (.lt (imm 3) (atCell 0) (toCell 1)) (machine .ext [7, 8])), .inr (.inr (.inl rfl)), by decide, by decide,
    by decide, next_of (by decide), by decide⟩

theorem witness_FaultsArePrecise :
    ∃ t, (machine .base [1, 0, 0, 5, 99]).state = .running ∧ step (machine .base [1, 0, 0, 5, 99]) = .next t ∧
      t.state = .faulted :=
  ⟨landed (step (machine .base [1, 0, 0, 5, 99])), by decide, next_of (by decide), by decide⟩

/-- Two steps: the run returns, and the host issues another. -/
theorem witness_TerminalIsForever :
    let s := { machine .base [99] with state := .halted, hostRuns := ⟨[.run], .every .wait⟩ }
    s.Terminal ∧ ∃ t, Sys2Proof.core.run 2 s = .next t ∧ t.sent = [.runDone .success, .runDone .success] :=
  ⟨by decide, landed (Sys2Proof.core.run 2 { machine .base [99] with state := .halted, hostRuns := ⟨[.run], .every .wait⟩ }),
    next_of (by decide), by decide⟩

/-- Machines of 64 bits and of 2, with the extreme words of each. -/
theorem witness_ConstructedMeetsInv :
    (2 ≤ Config.normative.width ∧ ∀ v ∈ [minWord, maxWord], InWord Config.normative.width v) ∧
      2 ≤ Config.width { Config.normative with width := 2 } ∧ ∀ v ∈ [(-2 : Int), 1], InWord 2 v := by decide

theorem witness_FitReturnsWord :
    InWord 64 maxWord ∧ InWord 64 minWord ∧ (¬ InWord 64 (maxWord + 1) ∧ (machine .base []).cfg.overflow = .fault) ∧
      (¬ InWord 64 (minWord - 1) ∧ (wrapping .base []).cfg.overflow = .wrap ∧ 1 ≤ (wrapping .base []).cfg.width ∧
        InWord 64 maxWord ∧ (maxWord - (minWord - 1)) % 2 ^ 64 = 0) := by decide

theorem witness_OnlyWordsAreHeldAndSent :
    (heldOut []).WordsFit ∧ (∀ w, .outReq w ∈ (heldOut []).sent → InWord (heldOut []).cfg.width w) ∧
      ∃ t, Sys2Proof.core.run 2 (heldOut []) = .next t ∧ .outReq 4 ∈ t.sent :=
  ⟨heldOut_inv.wordsFit, by rintro w h; simp [heldOut] at h; subst h; decide,
    landed (Sys2Proof.core.run 2 (heldOut [])), next_of (by decide), by decide⟩

theorem witness_StepKeepsInv : (heldIn []).Inv ∧ ∃ t, step (heldIn []) = .next t :=
  ⟨heldIn_inv, landed (step (heldIn [])), next_of (by decide)⟩

theorem witness_RelativeBaseIsolated :
    (∃ t, step (machine .ext [109, 5]) = .next t ∧ t.rb ≠ (machine .ext [109, 5]).rb) ∧
    (Claims.noRelative (.add (atCell 0) (imm 2) (toCell 0)) ∧ (∀ o, Instr.add (atCell 0) (imm 2) (toCell 0) ≠ .arb o) ∧
      ∃ t, (machine .ext [1001, 0, 2, 0]).Enabled ∧
        (machine .ext [1001, 0, 2, 0]).fetch = .ok (.add (atCell 0) (imm 2) (toCell 0)) ∧
        exec (.add (atCell 0) (imm 2) (toCell 0)) (machine .ext [1001, 0, 2, 0]) = .next t ∧
        step (machine .ext [1001, 0, 2, 0]) = .next t) :=
  ⟨⟨landed (step (machine .ext [109, 5])), next_of (by decide), by decide⟩,
    ⟨by decide, by decide, by decide⟩, by intro o; simp,
    landed (step (machine .ext [1001, 0, 2, 0])), by decide, by decide, next_of (by decide), next_of (by decide)⟩

theorem witness_HeldCoreWaits :
    ((heldIn []).Held ∧ (heldIn []).pend = some (.inp 0) ∧ (heldIn []).hostIn = ⟨[], .every .wait⟩) ∧
    ((heldIn [.wait]).Held ∧ (heldIn [.wait]).inTurn = (.wait, ⟨[], .every .wait⟩)) ∧
    ((heldIn [.fail]).Held ∧ (heldIn [.fail]).inTurn = (.fail, ⟨[], .every .wait⟩) ∧ InMove.fail ≠ .wait) ∧
    ((heldOut []).Held ∧ (heldOut []).pend = some (.out 4) ∧ (heldOut []).hostOut = ⟨[], .every .wait⟩) ∧
    ((heldOut [.wait]).Held ∧ (heldOut [.wait]).outTurn = (.wait, ⟨[], .every .wait⟩)) ∧
    ((heldOut [.ack]).Held ∧ (heldOut [.ack]).outTurn = (.ack, ⟨[], .every .wait⟩) ∧ OutMove.ack ≠ .wait) := by decide

theorem witness_OneRequestAtATime :
    ∃ t, step (machine .ext [4, 0, 99]) = .next t ∧ t.sent = [.outReq 4] :=
  ⟨landed (step (machine .ext [4, 0, 99])), next_of (by decide), by decide⟩

theorem witness_BaseNeverUsesPorts :
    ∃ t, (machine .base [2, 0, 0, 0]).cfg.profile = .base ∧ (machine .base [2, 0, 0, 0]).pend = none ∧
      step (machine .base [2, 0, 0, 0]) = .next t :=
  ⟨landed (step (machine .base [2, 0, 0, 0])), by decide, by decide, next_of (by decide)⟩

/-- A channel with a script, and the two ends of one without. -/
theorem witness_HostActsOnlyWhereItMay :
    (∃ t, step (heldIn [.value 7, .fail]) = .next t ∧ t.hostIn = ⟨[.fail], .every .wait⟩) ∧
    (heldIn []).hostIn = ⟨[], .every .wait⟩ ∧
    ((machine .ext [3, 0]).hostIn = ⟨[], .free 0⟩ ∧ (machine .ext [3, 0]).hostOut = ⟨[], .free 0⟩ ∧
      (machine .ext [3, 0]).hostRuns = ⟨[], .free 0⟩) ∧
    ∃ t, step (machine .ext [3, 0]) = .next t :=
  ⟨⟨landed (step (heldIn [.value 7, .fail])), next_of (by decide), by decide⟩, by decide, by decide,
    landed (step (machine .ext [3, 0])), next_of (by decide)⟩

/-- Held, with a host that answers without end (a loop over OUT asks it a second time), and one that never does; idle, with a host that issues `Run` without end. -/
theorem witness_HostMayAnswerForEver :
    (let s := { heldIn [] with hostIn := ⟨[], .every (.value 7)⟩ };
      ∃ t, Sys2Proof.core.run 0 s = .next t ∧ t.Held ∧ t.pend = some (.inp 0) ∧ InRange t.tape.length (0 : Int)) ∧
    (let s := { machine .ext [104, 1, 1105, 1, 0] with hostOut := ⟨[], .every .ack⟩ };
      ∃ t, Sys2Proof.core.run 4 s = .next t ∧ t.Held ∧ t.pend = some (.out 1) ∧ t.sent = [.outReq 1, .outReq 1]) ∧
    (∃ t, Sys2Proof.core.run 3 (heldIn []) = .next t ∧ t.Held ∧ (heldIn []).hostIn = ⟨[], .every .wait⟩) ∧
    (let s := { machine .base [99] with state := .halted, hostRuns := ⟨[], .every .run⟩ };
      ∃ t, Sys2Proof.core.run 4 s = .next t ∧ t.cmd = .idle ∧ t.Terminal ∧ t.sent.length = 4) :=
  ⟨⟨_, rfl, by decide, by decide, by decide⟩, 
    ⟨landed (Sys2Proof.core.run 4 { machine .ext [104, 1, 1105, 1, 0] with hostOut := ⟨[], .every .ack⟩ }),
      next_of (by decide), by decide, by decide, by decide⟩,
    ⟨landed (Sys2Proof.core.run 3 (heldIn [])), next_of (by decide), by decide, by decide⟩,
    landed (Sys2Proof.core.run 4 { machine .base [99] with state := .halted, hostRuns := ⟨[], .every .run⟩ }),
    next_of (by decide), by decide, by decide, by decide⟩

theorem witness_RunStartsAndReturns :
    (State.construct Config.normative [99]).cmd = .idle ∧ (State.construct Config.normative [99]).state = .running ∧
    State.runTurn { State.construct Config.normative [99] with hostRuns := ⟨[.run], .every .wait⟩ } = (.run, ⟨[], .every .wait⟩) ∧
    (machine .base [99]).cmd = .active ∧ State.state { machine .base [99] with state := .halted } = .halted ∧
    State.state { machine .base [0] with state := .faulted, fault := some ⟨.invalidOpcode 0, 0⟩ } = .faulted := by decide

theorem witness_RerunReportsAtOnce :
    let h := { State.construct Config.normative [99] with state := .halted, hostRuns := ⟨[.run], .every .wait⟩ }
    let f := { State.construct Config.normative [0] with
      state := .faulted, fault := some ⟨.invalidOpcode 0, 0⟩, hostRuns := ⟨[.run], .every .wait⟩ }
    (h.cmd = .idle ∧ h.runTurn = (.run, ⟨[], .every .wait⟩) ∧ h.state = .halted) ∧
      f.cmd = .idle ∧ f.runTurn = (.run, ⟨[], .every .wait⟩) ∧ f.state = .faulted := by decide

theorem witness_OnlyActiveRunningExecutes :
    let r := { State.construct Config.normative [99] with hostRuns := ⟨[.run], .every .wait⟩ }
    let e := { machine .base [99] with state := .halted }
    (∃ t, step r = .next t ∧ r.cmd = .idle ∧ t.cmd = .active) ∧
    (∃ t, step e = .next t ∧ e.cmd = .active ∧ t.cmd = .idle ∧ ¬ (e.cmd = .active ∧ e.state = .running)) :=
  ⟨⟨landed (step { State.construct Config.normative [99] with hostRuns := ⟨[.run], .every .wait⟩ }), next_of (by decide), by decide⟩,
    ⟨landed (step { machine .base [99] with state := .halted }), next_of (by decide), by decide⟩⟩

theorem witness_BaseRunEnds :
    (machine .base [1, 0, 0, 0, 99]).Enabled ∧ (machine .base [1, 0, 0, 0, 99]).cfg.profile = .base ∧
      (machine .base [1, 0, 0, 0, 99]).pc = 0 := by decide

/-- Each kind of fault, with the extreme program counters and addresses of the fields. -/
theorem witness_StatusBlockFields :
    (∀ c fpc, (c = .invalidOpcode (-1) ∨ c = .memoryFault (2 ^ 63 - 1) .fetch ∨ c = .memoryFault (-2 ^ 63) .write ∨
        c = .memoryFault (2 ^ 63) .read ∨
        c = .portFailure .inp ∨ c = .portFailure .out ∨ c = .arithmeticOverflow (2 ^ 63)) → (fpc = -2 ^ 63 ∨ fpc = 2 ^ 63 - 1) →
      State.FaultRecorded { machine .ext [0] with state := .faulted, fault := some ⟨c, fpc⟩ } ∧ InWord 64 fpc) ∧
    (machine .ext [0]).FaultRecorded ∧ (machine .ext [0]).state = .running ∧
    State.FaultRecorded { machine .ext [0] with state := .halted } ∧ InWord 64 (2 ^ 63 - 1) ∧ InWord 64 (-2 ^ 63) ∧
    ¬ InWord 64 (2 ^ 63) := by
  refine ⟨?_, by decide, by decide, by decide, by decide, by decide, by decide⟩
  rintro c fpc - (rfl | rfl) <;> exact ⟨by simp [State.FaultRecorded], by decide⟩

theorem witness_DumpDeterminesTape :
    (machine .base [-1, 0, 42]).dump = (State.construct Config.normative [-1, 0, 42]).dump := by decide

theorem witness_reset_memory_wf : Memory.wf 0 State.reset.tape := Memory.reset_wf

end Sys2Proof.Tests
end

section
/-!
Fit (R13): its one word congruent to the exact result. A word is its own wrap, and wrap depends on its
argument only modulo `2^W`, so a word congruent to `v` is `wrap_W(v)`.
-/
namespace Sys2Proof.Machine

/-- At width 0 this fails: 0 and -1 are both words, and wrap sends all integers to 0. -/
theorem wrap_of_inWord {W : Nat} {r : Int} (hW : 1 ≤ W) (h : InWord W r) : wrap W r = r := by
  obtain ⟨n, rfl⟩ := Nat.exists_eq_add_of_le' hW
  obtain ⟨hlo, hhi⟩ := h
  have e : (2 : Int) ^ (n + 1) = 2 * 2 ^ n := pow_succ' 2 n
  simp only [Nat.add_sub_cancel] at hlo hhi
  apply Int.bmod_eq_of_le <;> push_cast <;> omega

theorem wrap_eq_wrap_of_congr {W : Nat} {r v : Int} (h : (r - v) % 2 ^ W = 0) : wrap W r = wrap W v := by
  rw [wrap, wrap, Int.bmod_eq_bmod_iff_bmod_sub_eq_zero]
  exact Int.bmod_eq_zero_of_dvd (by simpa using Int.dvd_of_emod_eq_zero h)

theorem eq_wrap_of_inWord_of_congr {W : Nat} {r v : Int} (hW : 1 ≤ W) (h : InWord W r)
    (hc : (r - v) % 2 ^ W = 0) : r = wrap W v :=
  (wrap_of_inWord hW h).symm.trans (wrap_eq_wrap_of_congr hc)

/-- Settles O47, by the three cases of `Fit`; the word of the wrapping case is `wrap_W(v)`. -/
theorem fitReturnsWord : Obligations.FitReturnsWord := by
  intro s v
  refine ⟨State.fit_word, State.fit_fault, fun hout hwrap hW => ?_⟩
  exact ⟨wrap s.cfg.width v, State.fit_wrap hout hwrap, inWord_wrap .., wrap_congr ..,
    fun _ hword hcongr => eq_wrap_of_inWord_of_congr hW hword hcongr⟩

end Sys2Proof.Machine
end

section
/-!
Everything a step can do (40_cycle.md R58): the relation `StepTo`, one constructor for each way a cycle, a port
completion, the return of a run or a turn of the host can end, and `stepTo_of_step`, that a step does nothing
else. The invariants below are case splits on it.
-/
namespace Sys2Proof.Machine

/-- What a storing instruction writes: a fitted result (R69, R70) or a truth value (R92, R93). -/
def State.Storable (s : State) (r : Int) : Prop := (∃ v, s.fit v = .ok r) ∨ ∃ b, r = truthWord b

/-- The states a step from `s` can reach, each with what makes it reach that one. -/
inductive StepTo (s : State) : State → Prop
  /-- A fault of the fetch or of the instruction. -/
  | fault (c : FaultCause) (he : s.Enabled) : StepTo s (s.raise c)
  | store {i : Instr} {a b : ROperand} {d : WOperand} {x r : Int} (he : s.Enabled) (hf : s.fetch = .ok i)
      (hi : StoresTo i a b d) (hd : s.resolveWrite d = .ok x) (hr : s.Storable r) :
      StepTo s { s with tape := s.tape.set x.toNat r, pc := s.pc + 4 }
  | halt (he : s.Enabled) (hf : s.fetch = .ok .halt) : StepTo s s.halt
  | jump {i : Instr} {a b : ROperand} {v : Int} (he : s.Enabled) (hf : s.fetch = .ok i)
      (hi : i = .jt a b ∨ i = .jf a b) (hb : s.resolveRead b = .ok v) : StepTo s (s.jumpTo v)
  | passJump {i : Instr} {a b : ROperand} (he : s.Enabled) (hf : s.fetch = .ok i)
      (hi : i = .jt a b ∨ i = .jf a b) : StepTo s (s.advance 3)
  | adjustBase {o : ROperand} {v r : Int} (he : s.Enabled) (hf : s.fetch = .ok (.arb o))
      (ho : s.resolveRead o = .ok v) (hr : s.fit (s.rb + v) = .ok r) : StepTo s ((s.setRb r).advance 2)
  | issueIn {d : WOperand} {a : Int} (he : s.Enabled) (hf : s.fetch = .ok (.inp d))
      (hd : s.resolveWrite d = .ok a) : StepTo s (s.issue (.inp a) .inReq)
  | issueOut {o : ROperand} {v : Int} (he : s.Enabled) (hf : s.fetch = .ok (.out o))
      (ho : s.resolveRead o = .ok v) : StepTo s (s.issue (.out v) (.outReq v))
  | waitIn {a : Int} {rest : Channel InMove} (hh : s.Held) (hp : s.pend = some (.inp a))
      (ht : s.inTurn = (.wait, rest)) : StepTo s (s.tookIn rest)
  /-- The host fails, or its value has no cell to go to. -/
  | failIn {a : Int} {m : InMove} {rest : Channel InMove} (c : FaultCause) (hh : s.Held)
      (hp : s.pend = some (.inp a)) (ht : s.inTurn = (m, rest)) : StepTo s ((s.tookIn rest).answered.raise c)
  | storeIn {a v : Int} {rest : Channel InMove} (hh : s.Held) (hp : s.pend = some (.inp a))
      (ht : s.inTurn = (.value v, rest)) (ha : InRange s.tape.length a) :
      StepTo s { s with tape := s.tape.set a.toNat v, pc := s.pc + 2, pend := none, hostIn := rest }
  | waitOut {v : Int} {rest : Channel OutMove} (hh : s.Held) (hp : s.pend = some (.out v))
      (ht : s.outTurn = (.wait, rest)) : StepTo s (s.tookOut rest)
  | failOut {v : Int} {rest : Channel OutMove} (c : FaultCause) (hh : s.Held) (hp : s.pend = some (.out v))
      (ht : s.outTurn = (.fail, rest)) : StepTo s ((s.tookOut rest).answered.raise c)
  | ackOut {v : Int} {rest : Channel OutMove} (hh : s.Held) (hp : s.pend = some (.out v))
      (ht : s.outTurn = (.ack, rest)) : StepTo s ((s.tookOut rest).answered.advance 2)
  /-- The run returns (R62). -/
  | finish (res : RunResult) (hc : s.cmd = .active) (hs : s.Terminal) :
      StepTo s { s with cmd := .idle, sent := s.sent ++ [.runDone res] }
  | hostWait {rest : Channel RunMove} (hc : s.cmd = .idle) (ht : s.runTurn = (.wait, rest)) :
      StepTo s { s with hostRuns := rest }
  | hostRun {rest : Channel RunMove} (hc : s.cmd = .idle) (hs : s.state = .running)
      (ht : s.runTurn = (.run, rest)) : StepTo s { s with hostRuns := rest, cmd := .active }
  /-- A second run reports at once (R63). -/
  | hostRerun {rest : Channel RunMove} (res : RunResult) (hc : s.cmd = .idle) (hs : s.Terminal)
      (ht : s.runTurn = (.run, rest)) :
      StepTo s { s with hostRuns := rest, sent := s.sent ++ [.runDone res] }

/-- ADD, MUL, LT and EQ, where what they compute can be stored. -/
theorem stepTo_of_compute {s t : State} {i : Instr} {f : Int → Int → Except FaultCause Int} {a b : ROperand}
    {d : WOperand} (he : s.Enabled) (hf : s.fetch = .ok i) (hi : StoresTo i a b d)
    (hstorable : ∀ x y r, f x y = .ok r → s.Storable r) (h : s.compute f a b d = .next t) : StepTo s t := by
  rcases State.compute_next h with ⟨c, rfl, -⟩ | ⟨v0, v1, x, r, -, -, hd, hr, -, rfl⟩
  · exact .fault c he
  · exact .store he hf hi hd (hstorable v0 v1 r hr)

/-- JT and JF. -/
theorem stepTo_of_branch {s t : State} {i : Instr} {p : Int → Bool} {a b : ROperand} (he : s.Enabled)
    (hf : s.fetch = .ok i) (hi : i = .jt a b ∨ i = .jf a b) (h : s.branch p a b = .next t) : StepTo s t := by
  rcases State.branch_next h with ⟨c, rfl, -⟩ | ⟨v0, v1, -, hb, rfl⟩
  · exact .fault c he
  · split
    · exact .jump he hf hi hb
    · exact .passJump he hf hi

theorem stepTo_of_exec {s t : State} {i : Instr} (he : s.Enabled) (hf : s.fetch = .ok i)
    (h : exec i s = .next t) : StepTo s t := by
  have hpend : s.pend = none := he.2.2
  have fitted (g : Int → Int → Int) : ∀ x y r, s.fit (g x y) = .ok r → s.Storable r :=
    fun _ _ _ hr => .inl ⟨_, hr⟩
  have truth (g : Int → Int → Bool) :
      ∀ x y r, Except.ok (ε := FaultCause) (truthWord (g x y)) = .ok r → s.Storable r :=
    fun _ _ _ hr => .inr ⟨_, (Except.ok.inj hr).symm⟩
  cases i with
  | add a b d => exact stepTo_of_compute he hf (.inl rfl) (fitted _) h
  | mul a b d => exact stepTo_of_compute he hf (.inr (.inl rfl)) (fitted _) h
  | lt a b d => exact stepTo_of_compute he hf (.inr (.inr (.inl rfl))) (truth _) h
  | eq a b d => exact stepTo_of_compute he hf (.inr (.inr (.inr rfl))) (truth _) h
  | jt a b => exact stepTo_of_branch he hf (.inl rfl) h
  | jf a b => exact stepTo_of_branch he hf (.inr rfl) h
  | halt => cases h; exact .halt he hf
  | arb o =>
    rcases execArb_next h with ⟨c, rfl, -⟩ | ⟨v, r, ho, hr, rfl⟩
    · exact .fault c he
    · exact .adjustBase he hf ho hr
  | inp d =>
    rcases execIn_next h with ⟨-, c, -, rfl⟩ | ⟨-, a, hd, rfl⟩ | ⟨hp, -⟩
    · exact .fault c he
    · exact .issueIn he hf hd
    · exact absurd hpend hp
  | out o =>
    rcases execOut_next h with ⟨-, c, -, rfl⟩ | ⟨-, v, ho, rfl⟩ | ⟨hp, -⟩
    · exact .fault c he
    · exact .issueOut he hf ho
    · exact absurd hpend hp

theorem stepTo_of_completePort {s t : State} (hh : s.Held) (h : s.completePort = .next t) : StepTo s t := by
  rcases State.completePort_next h hh.2.2 with ⟨a, hp, h⟩ | ⟨v, hp, h⟩
  · rcases State.completeIn_next h with
      ⟨rest, ht, rfl⟩ | ⟨rest, ht, rfl⟩ | ⟨v, rest, ht, ⟨ha, rfl⟩ | ⟨-, rfl⟩⟩
    · exact .waitIn hh hp ht
    · exact .failIn _ hh hp ht
    · exact .storeIn hh hp ht ha
    · exact .failIn _ hh hp ht
  · rcases State.completeOut_next h with ⟨rest, ht, rfl⟩ | ⟨rest, ht, rfl⟩ | ⟨rest, ht, rfl⟩
    · exact .waitOut hh hp ht
    · exact .failOut _ hh hp ht
    · exact .ackOut hh hp ht

theorem stepTo_finishRun {s : State} (hc : s.cmd = .active) (hs : s.Terminal) : StepTo s s.finishRun := by
  rcases State.finishRun_cases hs with ⟨-, e⟩ | ⟨-, e⟩ <;> rw [e] <;> exact .finish _ hc hs

theorem stepTo_hostTurn {s : State} (hc : s.cmd = .idle) : StepTo s s.hostTurn := by
  rcases State.hostTurn_cases s with ⟨rest, ht, e⟩ | ⟨rest, ht, ⟨hs, e⟩ | ⟨hs, e⟩ | ⟨hs, e⟩⟩ <;> rw [e]
  · exact .hostWait hc ht
  · exact .hostRun hc hs ht
  · exact .hostRerun _ hc (by simp [hs]) ht
  · exact .hostRerun _ hc (by simp [hs]) ht

/-- A step does one of the things `StepTo` lists. -/
theorem stepTo_of_step {s t : State} (h : step s = .next t) : StepTo s t := by
  rcases step_cases h with ⟨he, c, -, rfl⟩ | ⟨he, i, hf, h⟩ | ⟨hh, h⟩ | ⟨hc, hs, rfl⟩ | ⟨hc, rfl⟩
  · exact .fault c he
  · exact stepTo_of_exec he hf h
  · exact stepTo_of_completePort hh h
  · exact stepTo_finishRun hc hs
  · exact stepTo_hostTurn hc

/-- What every step keeps holds after any number of steps. -/
theorem run_invariant {P : State → Prop} (hstep : ∀ s t, P s → step s = .next t → P t) {k : Nat} {s t : State}
    (hs : P s) (h : Sys2Proof.core.run k s = .next t) : P t := by
  induction k generalizing s with
  | zero => cases h; exact hs
  | succ k ih =>
    cases hu : step s with
    | next u => exact ih (hstep s u hs hu) ((run_succ hu k).symm.trans h)
    | fault r => cases r
    | refused r =>
      have hr : Sys2Proof.core.step s = .refused r := hu
      simp [Host.Core.run, hr] at h

end Sys2Proof.Machine
end

section
/-! What every step leaves unchanged, and what it leaves unchanged where no cycle is enabled (10_state.md R19, R22, R24). -/
namespace Sys2Proof.Machine

/-! ### The configuration and the number of cells -/

theorem StepTo.cfg_eq {s t : State} (h : StepTo s t) : t.cfg = s.cfg := by cases h <;> rfl

/-- The two stores replace a cell; every other step keeps the tape itself. -/
theorem StepTo.tape_length {s t : State} (h : StepTo s t) : t.tape.length = s.tape.length := by
  cases h with
  | store => exact List.length_set
  | storeIn => exact List.length_set
  | _ => rfl

theorem State.fetch_of_pc_outside {s : State} (h : ¬ InRange s.tape.length s.pc) :
    s.fetch = .error (.memoryFault s.pc .fetch) := by
  simp only [State.fetch, State.memRead_error.mpr ⟨h, rfl⟩, bind, Except.bind]

/-- Settles O16, by the kinds of step; on the empty tape the fetch address is outside it. -/
theorem tapeLengthIsFixed : Obligations.TapeLengthIsFixed := by
  refine ⟨fun _ _ => rfl, fun s t h => ?_, fun s he hempty => ?_⟩
  · exact ⟨(stepTo_of_step h).tape_length, (stepTo_of_step h).cfg_eq⟩
  · have hout : ¬ InRange s.tape.length s.pc := by simp only [hempty, List.length_nil]; omega
    rw [step_enabled he, cycle_error (State.fetch_of_pc_outside hout)]

/-! ### Only with `cmd` Active and `state` Running -/

/-- The return of a run and the turns of the host change `cmd`, what was sent and the host's channel only. -/
theorem StepTo.frame_of_not_executing {s t : State} (h : StepTo s t) (hn : ¬ (s.cmd = .active ∧ s.state = .running)) :
    t.tape = s.tape ∧ t.pc = s.pc ∧ t.state = s.state ∧ t.fault = s.fault ∧ t.pend = s.pend ∧ t.rb = s.rb := by
  have enabled : ¬ s.Enabled := fun he => hn ⟨he.1, he.2.1⟩
  have held : ¬ s.Held := fun hh => hn ⟨hh.1, hh.2.1⟩
  cases h with
  | finish | hostWait | hostRun | hostRerun => exact ⟨rfl, rfl, rfl, rfl, rfl, rfl⟩
  | waitIn hh | failIn _ hh | storeIn hh | waitOut hh | failOut _ hh | ackOut hh => exact absurd hh held
  | fault _ he | store he | halt he | jump he | passJump he | adjustBase he | issueIn he | issueOut he =>
    exact absurd he enabled

theorem StepTo.runs_of_idle_of_active {s t : State} (h : StepTo s t) (hs : s.cmd = .idle) (ht : t.cmd = .active) :
    ∃ rest, s.runTurn = (.run, rest) := by
  have hst : t.cmd ≠ s.cmd := by simp [hs, ht]
  cases h with
  | hostRun _ _ hturn => exact ⟨_, hturn⟩
  | finish _ hc => simp [hs] at hc
  | _ => exact absurd rfl hst

theorem StepTo.returns_of_active_of_idle {s t : State} (h : StepTo s t) (hs : s.cmd = .active) (ht : t.cmd = .idle) :
    s.Terminal ∧ ∃ r, t.sent = s.sent ++ [.runDone r] := by
  have hst : t.cmd ≠ s.cmd := by simp [hs, ht]
  cases h with
  | finish res _ hterminal => exact ⟨hterminal, res, rfl⟩
  | hostRun hc => simp [hs] at hc
  | _ => exact absurd rfl hst

/-- Settles O42: a clause each for construction, the start of a run, its return, and the steps that execute nothing. -/
theorem onlyActiveRunningExecutes : Obligations.OnlyActiveRunningExecutes :=
  ⟨fun _ _ => rfl, fun _ _ h => (stepTo_of_step h).runs_of_idle_of_active,
    fun _ _ h => (stepTo_of_step h).returns_of_active_of_idle, fun _ _ h => (stepTo_of_step h).frame_of_not_executing⟩

/-! ### Terminal states -/

/-- `t` holds what a terminal `s` held, the parts of R15 but `cmd` and `pend`, under the same configuration. -/
def State.StillHolds (s t : State) : Prop :=
  t.state = s.state ∧ t.fault = s.fault ∧ t.tape = s.tape ∧ t.pc = s.pc ∧ t.rb = s.rb ∧ t.cfg = s.cfg

theorem StepTo.stillHolds {s u v : State} (hs : s.Terminal) (hu : s.StillHolds u) (h : StepTo u v) :
    s.StillHolds v := by
  obtain ⟨hstate, hfault, htape, hpc, hrb, hcfg⟩ := hu
  have hn : ¬ (u.cmd = .active ∧ u.state = .running) := fun hu => hs (hstate ▸ hu.2)
  obtain ⟨htape', hpc', hstate', hfault', -, hrb'⟩ := h.frame_of_not_executing hn
  exact ⟨hstate'.trans hstate, hfault'.trans hfault, htape'.trans htape, hpc'.trans hpc, hrb'.trans hrb,
    h.cfg_eq.trans hcfg⟩

/-- Settles O33, by induction on the number of steps: in a terminal state no step executes. -/
theorem terminalIsForever : Obligations.TerminalIsForever := by
  intro k s t hs
  exact run_invariant (P := s.StillHolds) (fun _ _ hu h => (stepTo_of_step h).stillHolds hs hu)
    ⟨rfl, rfl, rfl, rfl, rfl, rfl⟩

end Sys2Proof.Machine
end

section
/-! In a machine of words every step stores, holds and sends words (10_state.md R18, 43_io_ports.md R76). -/
namespace Sys2Proof.Machine

theorem State.Storable.inWord {s : State} {r : Int} (hs : s.WordsFit) (h : s.Storable r) : InWord s.cfg.width r := by
  rcases h with ⟨v, hv⟩ | ⟨b, rfl⟩
  · exact State.fit_inWord hv
  · exact inWord_truthWord hs.width b

/-- What OUT sends is a word. -/
theorem State.WordsFit.out_inWord {s : State} {o : ROperand} {v : Int} (hs : s.WordsFit) (hf : s.fetch = .ok (.out o))
    (ho : s.resolveRead o = .ok v) : InWord s.cfg.width v :=
  State.resolveRead_inWord hs (State.fetch_params_inWord hs hf _ (by simp [Instr.params])) ho

/-- What a jump jumps to is a word. -/
theorem State.WordsFit.target_inWord {s : State} {i : Instr} {a b : ROperand} {v : Int} (hs : s.WordsFit)
    (hf : s.fetch = .ok i) (hi : i = .jt a b ∨ i = .jf a b) (hb : s.resolveRead b = .ok v) : InWord s.cfg.width v := by
  have hparam : b.param ∈ i.params := by rcases hi with rfl | rfl <;> simp [Instr.params]
  exact State.resolveRead_inWord hs (State.fetch_params_inWord hs hf _ hparam) hb

theorem State.WordsFit.channel_fits {s : State} {m : InMove} {rest : Channel InMove} (hs : s.WordsFit)
    (h : s.inTurn = (m, rest)) : m.Fits s.cfg.width ∧ rest.Fits s.cfg.width := by
  simpa [h] using State.inTurn_fits hs

theorem StepTo.wordsFit {s t : State} (hs : s.WordsFit) (h : StepTo s t) : t.WordsFit := by
  have ⟨hwidth, htape, hrb, hpend, hin⟩ := hs
  cases h with
  | fault => exact ⟨hwidth, htape, hrb, nofun, hin⟩
  | store _ _ _ _ hr =>
    have hword := hr.inWord hs
    exact ⟨hwidth, Memory.inWord_set htape hword, hrb, hpend, hin⟩
  | adjustBase _ _ _ hr => exact ⟨hwidth, htape, State.fit_inWord hr, hpend, hin⟩
  | issueIn => exact ⟨hwidth, htape, hrb, by rintro _ ⟨⟩; trivial, hin⟩
  | issueOut _ hf ho => exact ⟨hwidth, htape, hrb, by rintro _ ⟨⟩; exact hs.out_inWord hf ho, hin⟩
  | waitIn _ _ ht => exact ⟨hwidth, htape, hrb, hpend, (hs.channel_fits ht).2⟩
  | failIn _ _ _ ht => exact ⟨hwidth, htape, hrb, nofun, (hs.channel_fits ht).2⟩
  | storeIn _ _ ht =>
    obtain ⟨hv, hrest⟩ := hs.channel_fits ht
    exact ⟨hwidth, Memory.inWord_set htape hv, hrb, nofun, hrest⟩
  | failOut | ackOut => exact ⟨hwidth, htape, hrb, nofun, hin⟩
  | _ => exact ⟨hwidth, htape, hrb, hpend, hin⟩

/-- A step that sends to the output port sends a word. -/
theorem StepTo.outReq_inWord {s t : State} {w : Int} (hs : s.WordsFit) (h : StepTo s t) (hw : .outReq w ∈ t.sent) :
    .outReq w ∈ s.sent ∨ InWord s.cfg.width w := by
  cases h with
  | issueOut _ hf ho =>
    rcases List.mem_append.mp hw with hw | hw
    · exact .inl hw
    · cases List.mem_singleton.mp hw; exact .inr (hs.out_inWord hf ho)
  | issueIn | finish | hostRerun => left; simpa using hw
  | _ => exact .inl hw

/-- Words are held, and words were sent: what O48 starts from and arrives at. -/
def State.WordsHeldAndSent (s : State) : Prop :=
  s.WordsFit ∧ ∀ w, .outReq w ∈ s.sent → InWord s.cfg.width w

theorem StepTo.wordsHeldAndSent {s t : State} (hs : s.WordsHeldAndSent) (h : StepTo s t) : t.WordsHeldAndSent := by
  obtain ⟨hfit, hsent⟩ := hs
  refine ⟨h.wordsFit hfit, fun w hw => ?_⟩
  rw [h.cfg_eq]
  exact (h.outReq_inWord hfit hw).elim (hsent w) id

/-- Settles O48: every step keeps words held and sent, so any number of steps does. -/
theorem onlyWordsAreHeldAndSent : Obligations.OnlyWordsAreHeldAndSent := by
  intro k s t v hfit hsent hrun
  obtain ⟨⟨hfit', hsent'⟩, hcfg⟩ : t.WordsHeldAndSent ∧ t.cfg = s.cfg :=
    run_invariant (P := fun u => u.WordsHeldAndSent ∧ u.cfg = s.cfg)
      (fun _ _ hu h => ⟨(stepTo_of_step h).wordsHeldAndSent hu.1, (stepTo_of_step h).cfg_eq.trans hu.2⟩)
      ⟨⟨hfit, hsent⟩, rfl⟩ hrun
  exact ⟨hfit', hcfg, hsent' v, fun _ => Memory.inWord_of_read hfit'.tape⟩

end Sys2Proof.Machine
end

section
/-!
The invariant (10_state.md R20, R23, R25, 45_ext_profile.md R84): it holds after construction, and each of its
clauses is kept by every step.
-/
namespace Sys2Proof.Machine

/-! ### The fault record (R23) -/

theorem State.FaultRecorded.fault_eq_none {s : State} (h : s.FaultRecorded) (hs : s.state ≠ .faulted) :
    s.fault = none := by
  by_contra hf
  exact hs (h.mp hf)

theorem State.raise_faultRecorded (s : State) (c : FaultCause) : (s.raise c).FaultRecorded := by
  simp [State.FaultRecorded]

theorem StepTo.faultRecorded {s t : State} (hs : s.FaultRecorded) (h : StepTo s t) : t.FaultRecorded := by
  cases h with
  | fault | failIn | failOut => exact State.raise_faultRecorded ..
  | halt he =>
    have hnone : s.fault = none := hs.fault_eq_none (by simp [he.2.1])
    simp [State.FaultRecorded, hnone]
  | _ => exact hs

/-! ### The outstanding request (R25) -/

theorem State.pendMatches_of_none {s : State} (h : s.pend = none) : s.PendMatches := by
  simp [State.PendMatches, h]

/-- A request is outstanding only while a run executes. -/
theorem State.PendMatches.pend_eq_none {s : State} (h : s.PendMatches) (hn : ¬ (s.cmd = .active ∧ s.state = .running)) :
    s.pend = none := by
  unfold State.PendMatches at h
  split at h
  · assumption
  all_goals
    obtain ⟨hcmd, hrun, -⟩ := h
    exact absurd ⟨hcmd, hrun⟩ hn

theorem State.PendMatches.of_inp {s : State} {a : Int} (h : s.PendMatches) (hp : s.pend = some (.inp a)) :
    ∃ d, s.fetch = .ok (.inp d) := by
  simp only [State.PendMatches, hp] at h
  obtain ⟨-, -, d, hd, -⟩ := h
  exact ⟨d, hd⟩

theorem State.PendMatches.of_out {s : State} {v : Int} (h : s.PendMatches) (hp : s.pend = some (.out v)) :
    ∃ o, s.fetch = .ok (.out o) := by
  simp only [State.PendMatches, hp] at h
  obtain ⟨-, -, o, ho, -⟩ := h
  exact ⟨o, ho⟩

/-- A fetch does not look at what is outstanding: the issue leaves the port instruction at the pc. -/
theorem State.issue_fetch (s : State) (p : Pend) (r : Sent) : (s.issue p r).fetch = s.fetch :=
  State.fetch_congr rfl rfl rfl rfl

/-- A port request is issued with its operand resolved; it stays as it is while the host waits, and an answer ends it. -/
theorem StepTo.pendMatches {s t : State} (hs : s.PendMatches) (h : StepTo s t) : t.PendMatches := by
  cases h with
  | fault | failIn | storeIn | failOut | ackOut => exact State.pendMatches_of_none rfl
  | store he | halt he | jump he | passJump he | adjustBase he => exact State.pendMatches_of_none he.2.2
  | issueIn he hf hd => exact ⟨he.1, he.2.1, _, (State.issue_fetch ..).trans hf, hd⟩
  | issueOut he hf ho => exact ⟨he.1, he.2.1, _, (State.issue_fetch ..).trans hf, ho⟩
  | waitIn | waitOut => exact hs
  | finish _ _ hterminal => exact State.pendMatches_of_none (hs.pend_eq_none fun hn => hterminal hn.2)
  | hostWait hc | hostRun hc | hostRerun _ hc =>
    exact State.pendMatches_of_none (hs.pend_eq_none (by simp [hc]))

/-! ### The pc (R20) -/

theorem StoresTo.length_eq {i : Instr} {a b : ROperand} {d : WOperand} (h : StoresTo i a b d) : i.length = 4 := by
  rcases h with rfl | rfl | rfl | rfl <;> rfl

/-- Past a fetched instruction the pc is at most `N`. -/
theorem State.advance_pc_inRange {s : State} {i : Instr} {len : Nat} (hf : s.fetch = .ok i) (hlen : i.length = len) :
    0 ≤ s.pc + len ∧ s.pc + len ≤ s.tape.length := by
  have := State.fetch_inRange hf
  omega

/-- BASE does not fetch what only EXT has. -/
theorem State.profile_ne_base {s : State} {i : Instr} (hf : s.fetch = .ok i) (hi : i.wellFormed .base = false) :
    s.cfg.profile ≠ .base := by
  intro hbase
  have hw := (State.fetch_ok.mp hf).1
  simp [hbase, hi] at hw

theorem State.profile_ne_base_of_jump {s : State} {i : Instr} {a b : ROperand} (hf : s.fetch = .ok i)
    (hi : i = .jt a b ∨ i = .jf a b) : s.cfg.profile ≠ .base :=
  State.profile_ne_base hf (by rcases hi with rfl | rfl <;> rfl)

/-- The pc stays, moves past an instruction of the tape, or, in EXT, jumps to a word. -/
theorem StepTo.pc_cases {s t : State} (hp : s.PendMatches) (hw : s.WordsFit) (h : StepTo s t) :
    t.pc = s.pc ∨ (0 ≤ t.pc ∧ t.pc ≤ s.tape.length) ∨ (s.cfg.profile ≠ .base ∧ InWord s.cfg.width t.pc) := by
  cases h with
  | store _ hf hi => exact .inr (.inl (State.advance_pc_inRange hf hi.length_eq))
  | jump _ hf hi hb => exact .inr (.inr ⟨State.profile_ne_base_of_jump hf hi, hw.target_inWord hf hi hb⟩)
  | passJump _ hf hi =>
    exact .inr (.inl (State.advance_pc_inRange hf (by rcases hi with rfl | rfl <;> rfl)))
  | adjustBase _ hf => exact .inr (.inl (State.advance_pc_inRange (s := s) hf rfl))
  | storeIn _ hpend =>
    obtain ⟨d, hf⟩ := hp.of_inp hpend
    exact .inr (.inl (State.advance_pc_inRange hf rfl))
  | ackOut _ hpend =>
    obtain ⟨o, hf⟩ := hp.of_out hpend
    exact .inr (.inl (State.advance_pc_inRange hf rfl))
  | _ => exact .inl rfl

theorem StepTo.pcInRange {s t : State} (hs : s.PcInRange) (hp : s.PendMatches) (hw : s.WordsFit) (h : StepTo s t) :
    t.PcInRange := by
  unfold State.PcInRange
  rw [h.cfg_eq, h.tape_length]
  rcases h.pc_cases hp hw with hpc | hpc | ⟨-, hpc⟩
  · rwa [hpc]
  · exact .inl hpc
  · exact .inr hpc

/-! ### BASE (R25, R84) -/

/-- In BASE there is no port instruction and no ARB. -/
theorem StepTo.base_pend_rb {s t : State} (hbase : s.cfg.profile = .base) (hpend : s.pend = none) (h : StepTo s t) :
    t.pend = none ∧ t.rb = s.rb := by
  cases h with
  | adjustBase _ hf | issueIn _ hf | issueOut _ hf => exact absurd hbase (State.profile_ne_base hf rfl)
  | waitIn hh | waitOut hh => exact absurd hpend hh.2.2
  | fault | failIn | storeIn | failOut | ackOut => exact ⟨rfl, rfl⟩
  | _ => exact ⟨hpend, rfl⟩

theorem StepTo.baseClean {s t : State} (hs : s.BaseClean) (hw : s.WordsFit) (h : StepTo s t) : t.BaseClean := by
  intro hbase
  rw [h.cfg_eq] at hbase
  obtain ⟨hpend, hrb, hpc0, hpcN⟩ := hs hbase
  obtain ⟨hpend', hrb'⟩ := h.base_pend_rb hbase hpend
  refine ⟨hpend', hrb'.trans hrb, ?_⟩
  rw [h.tape_length]
  rcases h.pc_cases (State.pendMatches_of_none hpend) hw with hpc | hpc | ⟨hext, -⟩
  · rw [hpc]; exact ⟨hpc0, hpcN⟩
  · exact hpc
  · exact absurd hbase hext

/-! ### The whole invariant -/

/-- Settles O35, clause by clause; the clauses on the pc and on BASE use those on the request and on words. -/
theorem stepKeepsInv : Obligations.StepKeepsInv := by
  rintro s t ⟨hfault, hpend, hpc, hbase, hwords⟩ h
  have h := stepTo_of_step h
  exact ⟨h.faultRecorded hfault, h.pendMatches hpend, h.pcInRange hpc hpend hwords, h.baseClean hbase hwords,
    h.wordsFit hwords⟩

theorem State.construct_wordsFit {cfg : Config} {image : List Int} (hW : 2 ≤ cfg.width)
    (himage : ∀ v ∈ image, InWord cfg.width v) : (State.construct cfg image).WordsFit :=
  ⟨hW, himage, inWord_truthWord hW false, nofun, Channel.fits_free _ _⟩

theorem State.construct_inv {cfg : Config} {image : List Int} (hW : 2 ≤ cfg.width)
    (himage : ∀ v ∈ image, InWord cfg.width v) : (State.construct cfg image).Inv := by
  have hpc : (0 : Int) ≤ 0 ∧ (0 : Int) ≤ image.length := ⟨le_rfl, Int.natCast_nonneg _⟩
  exact {
    faultRecorded := by simp [State.FaultRecorded, State.construct]
    pendMatches := State.pendMatches_of_none rfl
    pcInRange := .inl hpc
    baseClean := fun _ => ⟨rfl, rfl, hpc⟩
    wordsFit := State.construct_wordsFit hW himage }

/-- Settles O34; the machine at reset is the construction from the empty tape at width 64. -/
theorem constructedMeetsInv : Obligations.ConstructedMeetsInv :=
  ⟨fun _ _ => State.construct_inv, State.construct_inv (by decide) nofun⟩

/-- Settles O44: each field is written out in `State.construct`. -/
theorem constructionValues : Obligations.ConstructionValues := by
  intro cfg image
  exact ⟨rfl, rfl, rfl, rfl, rfl, rfl, rfl, rfl, rfl⟩

end Sys2Proof.Machine
end

section
/-! The status block (10_state.md R26): its fields without a record and with one. -/
namespace Sys2Proof.Machine

theorem statusWord_of_inWord {W : Nat} {v : Int} (h : InWord W v) : statusWord W v = v := if_pos h

theorem inWord_statusWord (W : Nat) (v : Int) : InWord W (statusWord W v) := by
  unfold statusWord
  split
  · assumption
  · exact inWord_wrap ..

theorem State.statusBlock_of_fault_none {s : State} (h : s.fault = none) :
    s.statusBlock = ⟨s.state.code, 0, 0, 0, 0, 0⟩ := by
  simp [State.statusBlock, h]

theorem State.statusBlock_of_fault_some {s : State} {r : FaultRecord} (h : s.fault = some r) :
    s.statusBlock = ⟨s.state.code, r.cause.kindCode, statusWord s.cfg.width r.fpc, r.cause.addrCode s.cfg.width,
      r.cause.accessCode, r.cause.cellCode⟩ := by
  simp [State.statusBlock, h]

/-- Settles O45, by the engine state, and in Faulted by the kind of fault. -/
theorem statusBlockFields : Obligations.StatusBlockFields := by
  intro s hs
  refine ⟨fun hrun => ?_, fun hhalt => ?_, fun c fpc hfault => ?_⟩
  · rw [State.statusBlock_of_fault_none (hs.fault_eq_none (by simp [hrun])), hrun]; rfl
  · rw [State.statusBlock_of_fault_none (hs.fault_eq_none (by simp [hhalt])), hhalt]; rfl
  · have hfaulted : s.state = .faulted := hs.mp (by simp [hfault])
    rw [State.statusBlock_of_fault_some hfault, hfaulted]
    refine ⟨rfl, statusWord_of_inWord, inWord_statusWord .., ?_, ?_, ?_, ?_⟩
    · rintro w rfl; exact ⟨rfl, rfl, rfl, rfl⟩
    · rintro a k rfl
      exact ⟨rfl, statusWord_of_inWord, inWord_statusWord .., by cases k <;> rfl, rfl⟩
    · rintro p rfl; exact ⟨rfl, rfl, by cases p <;> rfl, rfl⟩
    · rintro v rfl; exact ⟨rfl, rfl, rfl, rfl⟩

end Sys2Proof.Machine
end

section
/-! Tape access (20_memory.md R32, R33, R37). -/
namespace Sys2Proof.Machine

/-- Settles O14, by whether the address is in range. -/
theorem accessFaultsExactlyOutsideTape : Obligations.AccessFaultsExactlyOutsideTape := by
  intro s a v access
  refine ⟨fun hout => ⟨State.memRead_error.mpr ⟨hout, rfl⟩, State.memWrite_outside v hout⟩, fun hin => ⟨?_, ?_⟩⟩
  · obtain ⟨w, hw⟩ := Memory.read_inside hin
    exact ⟨w, State.memRead_ok.mpr hw⟩
  · exact ⟨_, State.memWrite_inside v hin, List.length_set⟩

/-- Settles O15: a write that happens is in range and replaces one cell. -/
theorem readAfterWrite : Obligations.ReadAfterWrite := by
  intro t t' a v h
  obtain ⟨hin, rfl⟩ := Memory.write_eq_some.mp h
  exact ⟨Memory.read_set_same v hin, fun _ => Memory.read_set_other v hin⟩

end Sys2Proof.Machine
end

section
/-! ADD, MUL, LT and EQ (40_cycle.md R58): all four are the three-operand shape, which stores one cell. -/
namespace Sys2Proof.Machine

theorem exec_eq_compute_of_stores {i : Instr} {a b : ROperand} {d : WOperand} (hi : Claims.Stores i a b d)
    (s : State) : ∃ f, exec i s = s.compute f a b d := by
  rcases hi with rfl | rfl | rfl | rfl <;> exact ⟨_, rfl⟩

/-- Settles O27, by what the three-operand shape can do: fault, or store at the resolved destination. -/
theorem storingFrame : Obligations.StoringFrame := by
  intro i a b d s t hi h
  obtain ⟨f, hexec⟩ := exec_eq_compute_of_stores hi s
  rcases State.compute_next (hexec.symm.trans h) with ⟨c, rfl, -⟩ | ⟨-, -, x, r, -, -, hd, -, hx, rfl⟩
  · exact .inl ⟨c, rfl⟩
  · refine .inr ⟨⟨x, hd⟩, fun y hy => ?_, List.length_set, rfl, rfl, rfl, rfl, rfl, rfl, rfl, rfl, rfl, rfl⟩
    have hne : y ≠ x := by rintro rfl; exact hy hd
    exact Memory.read_set_other r hx hne

theorem State.fit_of_fitted {s : State} {v r : Int} (h : Claims.Fitted s.cfg v r) : s.fit v = .ok r := by
  obtain ⟨hword, hin, hout⟩ := h
  by_cases hv : InWord s.cfg.width v
  · rw [hin hv, State.fit_word hv]
  · obtain ⟨hwrap, hwidth, hcongr⟩ := hout hv
    rw [State.fit_wrap hv hwrap, eq_wrap_of_inWord_of_congr hwidth hword hcongr]

/-- A storing instruction whose operands resolve writes what it computes. -/
theorem exec_of_computes {i : Instr} {s : State} {a b : ROperand} {d : WOperand} {v0 v1 x r : Int}
    (hi : Claims.Stores i a b d) (ha : s.resolveRead a = .ok v0) (hb : s.resolveRead b = .ok v1)
    (hd : s.resolveWrite d = .ok x) (hr : Claims.Computes s.cfg v0 v1 r i) :
    exec i s = .next { s with tape := s.tape.set x.toNat r, pc := s.pc + 4 } := by
  rcases hi with rfl | rfl | rfl | rfl
  · exact State.compute_ok ha hb hd (State.fit_of_fitted hr)
  · exact State.compute_ok ha hb hd (State.fit_of_fitted hr)
  · obtain rfl := hr
    exact State.compute_ok ha hb hd (by simp [truthWord, lessThan])
  · obtain rfl := hr
    exact State.compute_ok ha hb hd (by simp [truthWord, equals])

end Sys2Proof.Machine
end

section
/-!
A cycle on a decoded instruction. The fetch checks the operands before the handler resolves them again (log 21):
`State.checkOperands` is what both have in common, and where it fails both raise its fault.
-/
namespace Sys2Proof.Machine

theorem decode_ok {p : Profile} {cells rest : List Int} {i : Instr} :
    decode p cells = .ok (i, rest) ↔ i.wellFormed p = true ∧ cells = encode i ++ rest := by
  cases cells with
  | nil => simp [decode, encode]
  | cons c cells =>
    rw [Instr.wellFormed_iff, encode, List.cons_append, List.cons.injEq, i.headCell_eq]
    constructor
    · intro h
      simp only [decode] at h
      split at h
      · cases h
      · rename_i hd he
        obtain ⟨rfl, hparams⟩ := Head.withParams_ok.mp h
        obtain ⟨hcell, hprofile⟩ := decodeHead_ok.mp he
        exact ⟨hprofile, hcell, hparams⟩
    · rintro ⟨hprofile, hcell, hparams⟩
      simp only [decode, decodeHead_ok.mpr ⟨hcell, hprofile⟩]
      exact Head.withParams_ok.mpr ⟨rfl, hparams⟩

theorem Except.bind_error_iff {α β ε : Type} {x : Except ε α} {f : α → Except ε β} {e : ε} :
    x >>= f = .error e ↔ x = .error e ∨ ∃ a, x = .ok a ∧ f a = .error e := by
  cases x <;> simp [bind, Except.bind]

/-- The operands of an instruction resolved in increasing order, up to the first fault (R53, R97). -/
def State.checkOperands (s : State) : Instr → Except FaultCause Unit
  | .add a b d | .mul a b d | .lt a b d | .eq a b d => do
    let _ ← s.resolveRead a
    let _ ← s.resolveRead b
    let _ ← s.resolveWrite d
  | .jt a b | .jf a b => do
    let _ ← s.resolveRead a
    let _ ← s.resolveRead b
  | .out a | .arb a => do
    let _ ← s.resolveRead a
  | .inp d => do
    let _ ← s.resolveWrite d
  | .halt => pure ()

theorem State.fetchRead_of_cell {s : State} {x : Int} {o : ROperand} (h : Memory.read s.tape x = some o.param) :
    s.fetchRead o.mode x = s.resolveRead o >>= fun _ => pure o := by
  simp only [State.fetchRead, State.memRead_ok.mpr h]
  rfl

theorem State.fetchWrite_of_cell {s : State} {x : Int} {d : WOperand} (h : Memory.read s.tape x = some d.param) :
    s.fetchWrite d.mode x = s.resolveWrite d >>= fun _ => pure d := by
  simp only [State.fetchWrite, State.memRead_ok.mpr h]
  rfl

/-- Where an instruction's parameter cells stand after the pc, the operand walk is the check of its operands. -/
theorem State.fetchOperands_of_cellsAt {s : State} {i : Instr} (h : CellsAt s.tape (s.pc + 1) i.params) :
    s.fetchOperands i.head = s.checkOperands i >>= fun _ => pure i := by
  have e2 : s.pc + 1 + 1 = s.pc + 2 := by omega
  have e3 : s.pc + 2 + 1 = s.pc + 3 := by omega
  cases i with
  | add a b d | mul a b d | lt a b d | eq a b d =>
    simp only [Instr.params, CellsAt, e2, e3, and_true] at h
    obtain ⟨ha, hb, hd⟩ := h
    simp only [State.fetchOperands, Instr.head, State.checkOperands, State.fetchRead_of_cell ha,
      State.fetchRead_of_cell hb, State.fetchWrite_of_cell hd, bind_assoc, pure_bind, Op3.instr]
  | jt a b | jf a b =>
    simp only [Instr.params, CellsAt, e2, and_true] at h
    obtain ⟨ha, hb⟩ := h
    simp only [State.fetchOperands, Instr.head, State.checkOperands, State.fetchRead_of_cell ha,
      State.fetchRead_of_cell hb, bind_assoc, pure_bind, Op2.instr]
  | out a | arb a =>
    simp only [State.fetchOperands, Instr.head, State.checkOperands, State.fetchRead_of_cell h.1, bind_assoc,
      pure_bind, Op1.instr]
  | inp d =>
    simp only [State.fetchOperands, Instr.head, State.checkOperands, State.fetchWrite_of_cell h.1, bind_assoc,
      pure_bind]
  | halt => rfl

/-- The jump shape raises the first fault of its operands. -/
theorem State.branch_operand_error {s : State} {taken : Int → Bool} {a b : ROperand} {c : FaultCause}
    (h : s.resolveRead a = .error c ∨ ∃ v, s.resolveRead a = .ok v ∧ s.resolveRead b = .error c) :
    s.branch taken a b = .next (s.raise c) := by
  rcases h with ha | ⟨v, ha, hb⟩
  · simp [State.branch, ha, bind, Except.bind]
  · simp [State.branch, ha, hb, bind, Except.bind]

/-- What the check of the operands finds, the handler raises. -/
theorem exec_of_checkOperands_error {s : State} {i : Instr} {c : FaultCause} (hp : s.pend = none)
    (h : s.checkOperands i = .error c) : exec i s = .next (s.raise c) := by
  cases i <;> simp only [State.checkOperands, Except.bind_error_iff, pure, Except.pure, reduceCtorEq, and_false,
    exists_false, or_false] at h
  case add a b d | mul a b d | lt a b d | eq a b d =>
    refine State.compute_operand_error (h.imp_right ?_)
    rintro ⟨v0, ha, hb | ⟨v1, hb, hd⟩⟩
    · exact .inl ⟨v0, ha, hb⟩
    · exact .inr ⟨v0, v1, ha, hb, hd⟩
  case jt a b | jf a b => exact State.branch_operand_error h
  case out a => simp [exec, execOut, hp, h, bind, Except.bind]
  case arb a => simp [exec, execArb, h, bind, Except.bind]
  case inp d => simp [exec, execIn, hp, h, bind, Except.bind]

/-- A cycle at the cells of an instruction of the profile is that instruction's meaning, its operands' faults
included. -/
theorem cycle_eq_exec {s : State} {i : Instr} (hp : s.pend = none) (hw : i.wellFormed s.cfg.profile = true)
    (hc : CellsAt s.tape s.pc (encode i)) : s.cycle = exec i s := by
  obtain ⟨hcell, hparams⟩ := hc
  have hhead : decodeHead s.cfg.profile (i.headCell : Int) = .ok i.head :=
    decodeHead_ok.mpr ⟨by rw [i.headCell_eq], (Instr.wellFormed_iff ..).mp hw⟩
  have hfetch : s.fetch = s.checkOperands i >>= fun _ => pure i := by
    rw [← State.fetchOperands_of_cellsAt hparams]
    simp only [State.fetch, State.memRead_ok.mpr hcell, bind, Except.bind, hhead]
  cases hcheck : s.checkOperands i with
  | ok =>
    rw [hcheck] at hfetch
    exact cycle_ok hfetch
  | error c =>
    rw [hcheck] at hfetch
    rw [cycle_error hfetch, exec_of_checkOperands_error hp hcheck]

theorem step_eq_exec_of_decode {s : State} {i : Instr} {rest : List Int} (he : s.Enabled) (hpc : 0 ≤ s.pc)
    (h : decode s.cfg.profile (s.tape.drop s.pc.toNat) = .ok (i, rest)) : step s = exec i s := by
  obtain ⟨hw, hcells⟩ := decode_ok.mp h
  have hat : CellsAt s.tape s.pc (encode i) := by
    simpa [Int.toNat_of_nonneg hpc] using cellsAt_of_drop hcells
  rw [step_enabled he, cycle_eq_exec he.2.2 hw hat]

end Sys2Proof.Machine
end

section
/-! A stored cell is fetched next (20_memory.md R42). -/
namespace Sys2Proof.Machine

theorem Memory.drop_of_read {t : List Int} {a r : Int} (h : Memory.read t a = some r) :
    t.drop a.toNat = r :: t.drop (a.toNat + 1) := by
  rw [Memory.read, if_pos (Memory.inRange_of_read h)] at h
  rw [List.drop_eq_getElem?_toList_append, h]
  rfl

/-- An enabled cycle fetches the cell at its pc. -/
theorem fetchesNext_of_read {t : State} {r : Int} (he : t.Enabled) (h : Memory.read t.tape t.pc = some r) :
    Claims.FetchesNext t r := by
  refine ⟨h, fun e hr => ?_, fun j rest hj => ?_⟩
  · rw [step_enabled he, cycle_error (State.fetch_rejected h hr)]
  · rw [← Memory.drop_of_read h] at hj
    exact step_eq_exec_of_decode he (Memory.inRange_of_read h).1 hj

theorem State.completePort_inp {s : State} {a : Int} (h : s.pend = some (.inp a)) :
    s.completePort = s.completeIn a := by
  simp [State.completePort, h]

/-- The completion of an input request whose value has a cell to go to (R88). -/
theorem State.completeIn_value {s : State} {a v : Int} {rest : Channel InMove} (ht : s.inTurn = (.value v, rest))
    (ha : InRange s.tape.length a) :
    s.completeIn a = .next { s with tape := s.tape.set a.toNat v, pc := s.pc + 2, pend := none, hostIn := rest } := by
  have hwrite := State.memWrite_inside (s := (s.tookIn rest).answered) v ha
  simp only [State.completeIn, ht, hwrite]
  rfl

/-- Settles O17: a store leaves the cycle enabled with the stored value at the pc. -/
theorem storedCellIsFetchedNext : Obligations.StoredCellIsFetchedNext := by
  refine ⟨fun i s a b d v0 v1 r hi he hf ha hb hd hr => ?_, fun s v rest hh hp hx ht => ?_⟩
  · have hstep : step s = .next { s with tape := s.tape.set (s.pc + 4).toNat r, pc := s.pc + 4 } := by
      rw [step_enabled he, cycle_ok hf, exec_of_computes hi ha hb hd hr]
    exact ⟨_, hstep, rfl, fetchesNext_of_read he (Memory.read_set_same r (State.resolveWrite_ok.mp hd).1)⟩
  · have hstep : step s = .next
        { s with tape := s.tape.set (s.pc + 2).toNat v, pc := s.pc + 2, pend := none, hostIn := rest } := by
      rw [step_held hh, State.completePort_inp hp, State.completeIn_value ht hx]
    exact ⟨_, hstep, rfl, fetchesNext_of_read ⟨hh.1, hh.2.1, rfl⟩ (Memory.read_set_same v hx)⟩

end Sys2Proof.Machine
end

section
/-! Encoder and decoder agree (30_encoding.md R45, R47, R48, R56): what `decode_ok` says of a decoded list. -/
namespace Sys2Proof

open Sys2Proof.Machine

/-- Settles O1: the encoding of a well-formed instruction is what `decode_ok` asks for. -/
theorem encodeThenDecode : Obligations.EncodeThenDecode :=
  fun _ _ _ hwf => decode_ok.mpr ⟨hwf, rfl⟩

/-- Settles O2: the other direction of `decode_ok`. -/
theorem decodeThenEncode : Obligations.DecodeThenEncode :=
  fun _ _ _ _ h => decode_ok.mp h

/-- The number of operands of an opcode (R47). -/
def Opcode.arity : Opcode → Nat
  | .f3 _ => 3
  | .f2 _ => 2
  | .f1 _ => 1
  | .inp => 1
  | .halt => 0

theorem Head.arity_eq (h : Head) : h.arity = h.opcode.arity := by cases h <;> rfl

theorem Instr.length_eq_arity (i : Instr) : i.length = 1 + i.head.opcode.arity := by
  rw [← Head.arity_eq]
  cases i <;> rfl

theorem encode_length (i : Instr) : (encode i).length = i.length := Nat.add_comm ..

/-- The low two digits of the instruction cell are the opcode. -/
theorem Instr.headCell_mod (i : Instr) : i.headCell % 100 = i.head.opcode.number := by
  rw [i.headCell_eq, i.head.cell_mod]

/-- Settles O7: equal low digits mean equal opcodes, and the opcode has the number of operands. -/
theorem lengthFromOpcode : Obligations.LengthFromOpcode := by
  intro p q c c' cells cells' rest rest' i j hi hj hmod
  obtain ⟨-, ei⟩ := decode_ok.mp hi
  obtain ⟨-, ej⟩ := decode_ok.mp hj
  have hc : c = i.headCell := (List.cons.inj ei).1
  have hc' : c' = j.headCell := (List.cons.inj ej).1
  have hop : i.head.opcode = j.head.opcode := by
    apply Opcode.number_inj
    rw [← i.headCell_mod, ← j.headCell_mod]
    omega
  exact ⟨by rw [i.length_eq_arity, j.length_eq_arity, hop], by rw [ei, List.length_append, encode_length]⟩

/-- Settles O8: each list is the encoding of its instruction, which `decode_ok` reads back. -/
theorem sampleWordsDecode : Obligations.SampleWordsDecode :=
  ⟨decode_ok.mpr ⟨rfl, rfl⟩, decode_ok.mpr ⟨rfl, rfl⟩, decode_ok.mpr ⟨rfl, rfl⟩, decode_ok.mpr ⟨rfl, rfl⟩,
    decode_ok.mpr ⟨rfl, rfl⟩, decode_ok.mpr ⟨rfl, rfl⟩⟩

end Sys2Proof
end

section
/-! Cells that are no instruction (30_encoding.md R46, R51): the cycle that fetches one raises InvalidOpcode. -/
namespace Sys2Proof.Machine

theorem step_rejected {s : State} {c : Int} {r : Reject} (he : s.Enabled) (hc : Memory.read s.tape s.pc = some c)
    (hr : decodeHead s.cfg.profile c = .error r) : step s = .next (s.raise (.invalidOpcode c)) := by
  rw [step_enabled he, cycle_error (State.fetch_rejected hc hr)]

theorem decodeHead_negative (p : Profile) {c : Int} (h : c < 0) : decodeHead p c = .error .negativeCell := if_pos h

/-- Settles O5: the sign is the decoder's first test. -/
theorem negativeCellIsInvalid : Obligations.NegativeCellIsInvalid := by
  refine ⟨fun p c cells hneg => ⟨.negativeCell, ?_⟩, fun s c he hc hneg => ?_⟩
  · simp only [decode, decodeHead_negative p hneg]
  · exact step_rejected he hc (decodeHead_negative _ hneg)

theorem decodeHead_base_ok_iff (c : Int) : (∃ h, decodeHead .base c = .ok h) ↔ c = 1 ∨ c = 2 ∨ c = 99 := by
  simp only [decodeHead_ok]
  constructor
  · rintro ⟨h, rfl, hcell⟩
    simp only [Head.inProfile] at hcell
    omega
  · rintro (rfl | rfl | rfl)
    · exact ⟨.f3 .add .position .position .position, rfl, .inl rfl⟩
    · exact ⟨.f3 .mul .position .position .position, rfl, .inr (.inl rfl)⟩
    · exact ⟨.halt, rfl, .inr (.inr rfl)⟩

/-- Settles O3: the heads of BASE are the cells 1, 2 and 99. -/
theorem baseAcceptsThreeCells : Obligations.BaseAcceptsThreeCells := by
  refine ⟨decodeHead_base_ok_iff, fun s c he hp hc h1 h2 h99 => ?_⟩
  cases hd : decodeHead .base c with
  | error r => exact step_rejected he hc (hp ▸ hd)
  | ok h =>
    have hthree := (decodeHead_base_ok_iff c).mp ⟨h, hd⟩
    omega

end Sys2Proof.Machine
end

section
/-! The addressing modes (30_encoding.md R50, 45_ext_profile.md R85), and the order of the operand checks (R53, R97). -/
namespace Sys2Proof.Machine

/-- Settles O13, mode by mode: a read operand is a read of its address, a write operand a check of it. -/
theorem operandModes : Obligations.OperandModes := by
  intro s p
  exact ⟨rfl, fun _ hv => State.memRead_ok.mpr hv, fun _ hv => State.memRead_ok.mpr hv,
    fun hout => State.memRead_error.mpr ⟨hout, rfl⟩, fun hout => State.memRead_error.mpr ⟨hout, rfl⟩,
    fun hin => State.resolveWrite_ok.mpr ⟨hin, rfl⟩, fun hin => State.resolveWrite_ok.mpr ⟨hin, rfl⟩,
    fun hout => State.resolveWrite_error.mpr ⟨hout, rfl⟩, fun hout => State.resolveWrite_error.mpr ⟨hout, rfl⟩⟩

/-- An answer behind a list of checks: the fault of the first that fails, and the value where none does. -/
def checked {α : Type} (checks : List (Bool × FaultCause)) (a : α) : Except FaultCause α :=
  match Claims.firstFailing checks with
  | some c => .error c
  | none => .ok a

/-- Checks in sequence are one list of checks. -/
theorem checked_bind {α β : Type} {l l' : List (Bool × FaultCause)} {a : α} {b : β} {f : α → Except FaultCause β}
    (h : f a = checked l' b) : checked l a >>= f = checked (l ++ l') b := by
  induction l with
  | nil => exact h
  | cons check l ih =>
    obtain ⟨_ | _, c⟩ := check
    · rfl
    · exact ih

theorem checked_bind_pure {α β : Type} (l : List (Bool × FaultCause)) (a : α) (f : α → β) :
    (checked l a >>= fun x => pure (f x)) = checked l (f a) := by
  simpa using checked_bind (l := l) (a := a) (l' := []) (f := fun x => pure (f x)) rfl

theorem checked_addressCheck {α : Type} (s : State) (a : Int) (k : Access) (v : α) :
    checked [Claims.addressCheck s a k] v =
      if InRange s.tape.length a then .ok v else .error (.memoryFault a k) := by
  by_cases h : InRange s.tape.length a <;> simp [checked, Claims.firstFailing, Claims.addressCheck, h]

theorem State.memRead_eq_checked (s : State) (a : Int) (k : Access) :
    s.memRead a k = checked [Claims.addressCheck s a k] ((Memory.read s.tape a).getD 0) := by
  rw [checked_addressCheck]
  split
  · obtain ⟨v, hv⟩ := Memory.read_inside ‹_›
    rw [State.memRead_ok.mpr hv, hv, Option.getD_some]
  · exact State.memRead_error.mpr ⟨‹_›, rfl⟩

theorem State.resolveRead_eq_checked (s : State) (m : RMode) (i : Nat) :
    ∃ v, s.resolveRead ⟨m, Claims.param s i⟩ = checked (Claims.readCheck s m i) v := by
  cases m with
  | position => exact ⟨_, s.memRead_eq_checked _ _⟩
  | immediate => exact ⟨_, rfl⟩
  | relative => exact ⟨_, s.memRead_eq_checked _ _⟩

theorem State.resolveWrite_eq_checked (s : State) (m : WMode) (i : Nat) :
    s.resolveWrite ⟨m, Claims.param s i⟩ =
      checked (Claims.writeCheck s m i) (s.writeAddress ⟨m, Claims.param s i⟩) := by
  cases m <;> exact (checked_addressCheck ..).symm

/-- A read operand's cell is checked, then its address. -/
theorem State.fetchRead_eq_checked (s : State) (m : RMode) (i : Nat) :
    s.fetchRead m (s.pc + i) =
      checked (Claims.cellCheck s i :: Claims.readCheck s m i) ⟨m, Claims.param s i⟩ := by
  obtain ⟨v, hv⟩ := s.resolveRead_eq_checked m i
  rw [State.fetchRead, s.memRead_eq_checked]
  refine checked_bind (l := [Claims.cellCheck s i]) ?_
  rw [← Claims.param, hv]
  exact checked_bind_pure ..

/-- A write operand's cell is checked, then its address. -/
theorem State.fetchWrite_eq_checked (s : State) (m : WMode) (i : Nat) :
    s.fetchWrite m (s.pc + i) =
      checked (Claims.cellCheck s i :: Claims.writeCheck s m i) ⟨m, Claims.param s i⟩ := by
  rw [State.fetchWrite, s.memRead_eq_checked]
  refine checked_bind (l := [Claims.cellCheck s i]) ?_
  rw [← Claims.param, s.resolveWrite_eq_checked]
  exact checked_bind_pure ..

/-- The operand walk is the list of checks of R53, and past them it answers an instruction. -/
theorem State.fetchOperands_eq_checked (s : State) (h : Head) :
    ∃ i, s.fetchOperands h = checked (Claims.operandChecks s h) i := by
  cases h with
  | f3 op m0 m1 m2 =>
    have e0 : s.fetchRead m0 (s.pc + 1) = _ := s.fetchRead_eq_checked m0 1
    have e1 : s.fetchRead m1 (s.pc + 2) = _ := s.fetchRead_eq_checked m1 2
    have e2 : s.fetchWrite m2 (s.pc + 3) = _ := s.fetchWrite_eq_checked m2 3
    simp only [State.fetchOperands, e0, e1, e2, Claims.operandChecks, List.append_assoc]
    exact ⟨_, checked_bind (checked_bind (checked_bind_pure ..))⟩
  | f2 op m0 m1 =>
    have e0 : s.fetchRead m0 (s.pc + 1) = _ := s.fetchRead_eq_checked m0 1
    have e1 : s.fetchRead m1 (s.pc + 2) = _ := s.fetchRead_eq_checked m1 2
    simp only [State.fetchOperands, e0, e1, Claims.operandChecks, List.append_assoc]
    exact ⟨_, checked_bind (checked_bind_pure ..)⟩
  | f1 op m0 =>
    have e0 : s.fetchRead m0 (s.pc + 1) = _ := s.fetchRead_eq_checked m0 1
    exact ⟨_, (congrArg (· >>= _) e0).trans (checked_bind_pure ..)⟩
  | inp m0 =>
    have e0 : s.fetchWrite m0 (s.pc + 1) = _ := s.fetchWrite_eq_checked m0 1
    exact ⟨_, (congrArg (· >>= _) e0).trans (checked_bind_pure ..)⟩
  | halt => exact ⟨.halt, rfl⟩

theorem State.fetch_decoded {s : State} {c : Int} {h : Head} (hc : Memory.read s.tape s.pc = some c)
    (hd : decodeHead s.cfg.profile c = .ok h) : s.fetch = s.fetchOperands h := by
  simp only [State.fetch, State.memRead_ok.mpr hc, bind, Except.bind, hd]

/-- Settles O12: the fetch past the decoder is the list of checks. -/
theorem firstFailingCheckNamesFault : Obligations.FirstFailingCheckNamesFault := by
  intro s c h he hc hd
  obtain ⟨i, hi⟩ := s.fetchOperands_eq_checked h
  have hfetch := (State.fetch_decoded hc hd).trans hi
  refine ⟨fun f hf => ?_, fun hnone => ⟨i, ?_, ?_⟩⟩
  · rw [step_enabled he, cycle_error (by rw [hfetch, checked, hf])]
  · rw [hfetch, checked, hnone]
  · rw [step_enabled he, cycle_ok (by rw [hfetch, checked, hnone])]

end Sys2Proof.Machine
end

section
/-!
InvalidOpcode comes from the decoder only (30_encoding.md R55): past it, a cycle raises no other fault than those of
its operands and of its result.
-/
namespace Sys2Proof.Machine

/-- A fault that is not the decoder's. -/
def FaultCause.PastDecoder (c : FaultCause) : Prop := ∀ w, c ≠ .invalidOpcode w

theorem State.memRead_pastDecoder {s : State} {a : Int} {k : Access} {c : FaultCause} (h : s.memRead a k = .error c) :
    c.PastDecoder := by
  obtain ⟨-, rfl⟩ := State.memRead_error.mp h
  simp [FaultCause.PastDecoder]

theorem State.resolveRead_pastDecoder {s : State} {o : ROperand} {c : FaultCause} (h : s.resolveRead o = .error c) :
    c.PastDecoder := by
  obtain ⟨a, -, -, rfl⟩ := State.resolveRead_error h
  simp [FaultCause.PastDecoder]

theorem State.resolveWrite_pastDecoder {s : State} {d : WOperand} {c : FaultCause}
    (h : s.resolveWrite d = .error c) : c.PastDecoder := by
  obtain ⟨-, rfl⟩ := State.resolveWrite_error.mp h
  simp [FaultCause.PastDecoder]

theorem State.fit_pastDecoder {s : State} {v : Int} {c : FaultCause} (h : s.fit v = .error c) : c.PastDecoder := by
  obtain rfl := State.fit_error h
  simp [FaultCause.PastDecoder]

/-- The three-operand shape faults only past the decoder, where its computation does. -/
theorem State.compute_pastDecoder {s t : State} {f : Int → Int → Except FaultCause Int} {a b : ROperand} {d : WOperand}
    (hf : ∀ x y c, f x y = .error c → c.PastDecoder) (h : s.compute f a b d = .next t) :
    t.state = s.state ∨ ∃ c : FaultCause, c.PastDecoder ∧ t = s.raise c := by
  rcases State.compute_next h with ⟨c, rfl, hc⟩ | ⟨v0, v1, x, r, -, -, -, -, -, rfl⟩
  · refine .inr ⟨c, ?_, rfl⟩
    rcases hc with ha | hb | hd | ⟨v0, v1, hr⟩
    · exact State.resolveRead_pastDecoder ha
    · exact State.resolveRead_pastDecoder hb
    · exact State.resolveWrite_pastDecoder hd
    · exact hf v0 v1 c hr
  · exact .inl rfl

theorem State.branch_pastDecoder {s t : State} {p : Int → Bool} {a b : ROperand} (h : s.branch p a b = .next t) :
    t.state = s.state ∨ ∃ c : FaultCause, c.PastDecoder ∧ t = s.raise c := by
  rcases State.branch_next h with ⟨c, rfl, ha | hb⟩ | ⟨v0, v1, -, -, rfl⟩
  · exact .inr ⟨c, State.resolveRead_pastDecoder ha, rfl⟩
  · exact .inr ⟨c, State.resolveRead_pastDecoder hb, rfl⟩
  · exact .inl (by split <;> rfl)

/-- An instruction with no request outstanding faults only past the decoder. -/
theorem exec_pastDecoder {i : Instr} {s t : State} (hp : s.pend = none) (h : exec i s = .next t) :
    t.state = s.state ∨ t.state = .halted ∨ ∃ c : FaultCause, c.PastDecoder ∧ t = s.raise c := by
  cases i with
  | add a b d | mul a b d => exact (State.compute_pastDecoder (fun _ _ _ => State.fit_pastDecoder) h).imp_right .inr
  | lt a b d | eq a b d => exact (State.compute_pastDecoder (by simp) h).imp_right .inr
  | jt a b | jf a b => exact (State.branch_pastDecoder h).imp_right .inr
  | halt => cases h; exact .inr (.inl rfl)
  | inp d =>
    rcases execIn_next h with ⟨-, c, hd, rfl⟩ | ⟨-, a, -, rfl⟩ | ⟨hne, -⟩
    · exact .inr (.inr ⟨c, State.resolveWrite_pastDecoder hd, rfl⟩)
    · exact .inl rfl
    · exact absurd hp hne
  | out o =>
    rcases execOut_next h with ⟨-, c, ho, rfl⟩ | ⟨-, v, -, rfl⟩ | ⟨hne, -⟩
    · exact .inr (.inr ⟨c, State.resolveRead_pastDecoder ho, rfl⟩)
    · exact .inl rfl
    · exact absurd hp hne
  | arb o =>
    rcases execArb_next h with ⟨c, rfl, ho | ⟨v, hr⟩⟩ | ⟨v, r, -, -, rfl⟩
    · exact .inr (.inr ⟨c, State.resolveRead_pastDecoder ho, rfl⟩)
    · exact .inr (.inr ⟨c, State.fit_pastDecoder hr, rfl⟩)
    · exact .inl rfl

theorem Except.pure_ne_error {α ε : Type} (a : α) (e : ε) : (pure a : Except ε α) ≠ .error e := nofun

theorem State.fetchRead_pastDecoder {s : State} {m : RMode} {a : Int} {c : FaultCause}
    (h : s.fetchRead m a = .error c) : c.PastDecoder := by
  simp only [State.fetchRead, Except.bind_error_iff, Except.pure_ne_error, and_false, exists_false,
    or_false] at h
  obtain hcell | ⟨p, -, haddress⟩ := h
  · exact State.memRead_pastDecoder hcell
  · exact State.resolveRead_pastDecoder haddress

theorem State.fetchWrite_pastDecoder {s : State} {m : WMode} {a : Int} {c : FaultCause}
    (h : s.fetchWrite m a = .error c) : c.PastDecoder := by
  simp only [State.fetchWrite, Except.bind_error_iff, Except.pure_ne_error, and_false, exists_false,
    or_false] at h
  obtain hcell | ⟨p, -, haddress⟩ := h
  · exact State.memRead_pastDecoder hcell
  · exact State.resolveWrite_pastDecoder haddress

theorem State.fetchOperands_pastDecoder {s : State} {h : Head} {c : FaultCause} (hf : s.fetchOperands h = .error c) :
    c.PastDecoder := by
  cases h <;> simp only [State.fetchOperands, Except.bind_error_iff, Except.pure_ne_error, and_false, exists_false,
    or_false] at hf
  case f3 =>
    obtain ha | ⟨_, -, hb | ⟨_, -, hd⟩⟩ := hf
    · exact State.fetchRead_pastDecoder ha
    · exact State.fetchRead_pastDecoder hb
    · exact State.fetchWrite_pastDecoder hd
  case f2 =>
    obtain ha | ⟨_, -, hb⟩ := hf
    · exact State.fetchRead_pastDecoder ha
    · exact State.fetchRead_pastDecoder hb
  case f1 => exact State.fetchRead_pastDecoder hf
  case inp => exact State.fetchWrite_pastDecoder hf

/-- A cycle at a cell that decodes faults only past the decoder. -/
theorem step_pastDecoder {s t : State} {c : Int} {h : Head} (he : s.Enabled) (hc : Memory.read s.tape s.pc = some c)
    (hd : decodeHead s.cfg.profile c = .ok h) (hstep : step s = .next t) :
    t.state = s.state ∨ t.state = .halted ∨ ∃ c : FaultCause, c.PastDecoder ∧ t = s.raise c := by
  rw [step_enabled he] at hstep
  cases hf : s.fetch with
  | error c' =>
    rw [cycle_error hf] at hstep
    cases hstep
    exact .inr (.inr ⟨c', State.fetchOperands_pastDecoder ((State.fetch_decoded hc hd).symm.trans hf), rfl⟩)
  | ok i => exact exec_pastDecoder he.2.2 ((cycle_ok hf).symm.trans hstep)

/-- Settles O6: a rejected cell ends the cycle, and past the decoder no cycle raises InvalidOpcode. -/
theorem invalidOpcodeExactlyOnRejectedCell : Obligations.InvalidOpcodeExactlyOnRejectedCell := by
  intro s c he hc
  constructor
  · rintro ⟨r, hr⟩
    exact ⟨_, step_rejected he hc hr, rfl, rfl, rfl⟩
  · rintro ⟨t, hstep, hfault, hstate, -⟩
    cases hd : decodeHead s.cfg.profile c with
    | error r => exact ⟨r, rfl⟩
    | ok h =>
      rcases step_pastDecoder he hc hd hstep with hs | hs | ⟨c', hpast, rfl⟩
      · simp [hstate, he.2.1] at hs
      · simp [hstate] at hs
      · simp only [State.raise_fault, Option.some.injEq, FaultRecord.mk.injEq, and_true] at hfault
        exact absurd hfault (hpast c)

end Sys2Proof.Machine
end

section
/-! A storing instruction does not read its destination (30_encoding.md R49, R50). -/
namespace Sys2Proof.Machine

theorem State.resolveRead_set_tape {s : State} {o : ROperand} {x : Int} (w : Int) (hx : InRange s.tape.length x)
    (ho : s.readAddress o ≠ some x) :
    State.resolveRead { s with tape := s.tape.set x.toNat w } o = s.resolveRead o := by
  have haddress : State.readAddress { s with tape := s.tape.set x.toNat w } o = s.readAddress o := rfl
  cases ha : s.readAddress o with
  | none => simp only [State.resolveRead, haddress, ha]
  | some a =>
    have hne : a ≠ x := by rintro rfl; exact ho ha
    simp only [State.resolveRead, haddress, ha, State.memRead, Memory.read_set_other w hx hne]

theorem State.resolveWrite_set_tape (s : State) (d : WOperand) (n : Nat) (w : Int) :
    State.resolveWrite { s with tape := s.tape.set n w } d = s.resolveWrite d := by
  simp only [State.resolveWrite, List.length_set]
  rfl

/-- The shape of a storing instruction does not depend on the tape. -/
theorem exec_eq_compute_of_stores_set_tape {i : Instr} {a b : ROperand} {d : WOperand} (hi : Claims.Stores i a b d)
    (s : State) (t : List Int) :
    ∃ f, exec i s = s.compute f a b d ∧ exec i { s with tape := t } = State.compute { s with tape := t } f a b d := by
  rcases hi with rfl | rfl | rfl | rfl <;> exact ⟨_, rfl, rfl⟩

/-- Settles O30: the operands resolve alike, and the store covers what the destination held. -/
theorem destinationIsNotRead : Obligations.DestinationIsNotRead := by
  intro i a b d s t x w hi hd ha hb h hpc
  obtain ⟨f, hexec, hexec'⟩ := exec_eq_compute_of_stores_set_tape hi s (s.tape.set x.toNat w)
  rcases State.compute_next (hexec.symm.trans h) with ⟨c, rfl, -⟩ | ⟨v0, v1, x', r, hv0, hv1, hx', hr, hx, rfl⟩
  · simp only [State.raise_pc] at hpc
    omega
  · obtain rfl : x = x' := Except.ok.inj (hd.symm.trans hx')
    rw [hexec', State.compute_ok ((State.resolveRead_set_tape w hx ha).trans hv0)
      ((State.resolveRead_set_tape w hx hb).trans hv1) ((s.resolveWrite_set_tape d _ w).trans hd) hr, List.set_set]

end Sys2Proof.Machine
end

section
/-! A cycle begins with the cell at the pc (40_cycle.md R57 to R59). -/
namespace Sys2Proof.Machine

theorem step_of_pc_outside {s : State} (he : s.Enabled) (hout : ¬ InRange s.tape.length s.pc) :
    step s = .next (s.raise (.memoryFault s.pc .fetch)) := by
  rw [step_enabled he, cycle_error (State.fetch_of_pc_outside hout)]

/-- Settles O9: the fetch's checks of the operands are those of the instruction itself. -/
theorem stepRunsDecodedInstr : Obligations.StepRunsDecodedInstr :=
  fun _ _ _ => step_eq_exec_of_decode

/-- Settles O11, by whether the pc is in range: the fetch reads that cell or faults. -/
theorem fetchOutsideTapeFaults : Obligations.FetchOutsideTapeFaults := by
  refine fun s he => ⟨step_of_pc_outside he, fun hin => ?_⟩
  obtain ⟨c, hc⟩ := Memory.read_inside hin
  exact ⟨c, hc, fun _ => step_rejected he hc, fun _ => State.fetch_decoded hc⟩

end Sys2Proof.Machine
end

section
/-! How an instruction that neither jumps nor halts moves the pc (40_cycle.md R60). -/
namespace Sys2Proof.Machine

/-- A port completion that ends the hold without a fault moves past the port instruction: IN and OUT both have length 2. -/
theorem State.completePort_pc {s t : State} (hpend : s.pend ≠ none) (h : s.completePort = .next t)
    (hrun : t.state = .running) (hdone : t.pend = none) : t.pc = s.pc + 2 ∧ t.fault = s.fault := by
  rcases State.completePort_next h hpend with ⟨a, -, h⟩ | ⟨v, -, h⟩
  · rcases State.completeIn_next h with ⟨rest, -, rfl⟩ | ⟨rest, -, rfl⟩ | ⟨v, rest, -, ⟨-, rfl⟩ | ⟨-, rfl⟩⟩
    · exact absurd hdone hpend
    · cases hrun
    · exact ⟨rfl, rfl⟩
    · cases hrun
  · rcases State.completeOut_next h with ⟨rest, -, rfl⟩ | ⟨rest, -, rfl⟩ | ⟨rest, -, rfl⟩
    · exact absurd hdone hpend
    · cases hrun
    · exact ⟨rfl, rfl⟩

theorem exec_pc_of_completes {i : Instr} {s t : State} (hhalt : i ≠ .halt) (hjt : ∀ a b, i ≠ .jt a b)
    (hjf : ∀ a b, i ≠ .jf a b) (h : exec i s = .next t) (hrun : t.state = .running) (hdone : t.pend = none) :
    t.pc = s.pc + i.length ∧ t.fault = s.fault := by
  rcases exec_next h with ⟨c, rfl⟩ | ⟨a, b, d, x, r, hi, -, -, rfl⟩ | ⟨hi, -⟩ | ⟨a, b, hi, -⟩ | ⟨o, r, rfl, rfl⟩ |
    ⟨d, a, -, -, -, rfl⟩ | ⟨o, v, -, -, -, rfl⟩ | ⟨hi, hpend, h⟩
  · cases hrun
  · rw [hi.length_eq]
    exact ⟨rfl, rfl⟩
  · exact absurd hi hhalt
  · exact absurd hi (not_or.mpr ⟨hjt a b, hjf a b⟩)
  · exact ⟨rfl, rfl⟩
  · cases hdone
  · cases hdone
  · have hlen : i.length = 2 := by rcases hi with ⟨d, rfl⟩ | ⟨o, rfl⟩ <;> rfl
    rw [hlen]
    exact State.completePort_pc hpend h hrun hdone

/-- Settles O26, by the kinds of effect of an instruction; the next fetch is that of an enabled cycle. -/
theorem pcMovesByLength : Obligations.PcMovesByLength := by
  refine ⟨fun i s t hhalt hjt hjf h hrun hdone => ?_, fun _ _ _ => ⟨rfl, rfl⟩⟩
  obtain ⟨hpc, hfault⟩ := exec_pc_of_completes hhalt hjt hjf h hrun hdone
  exact ⟨hpc, hfault, fun hcmd => step_of_pc_outside ⟨hcmd, hrun, hdone⟩⟩

end Sys2Proof.Machine
end

section
/-! The frames of the instructions that store nothing (42_halt.md R71, 45_ext_profile.md R89, R90, R94). -/
namespace Sys2Proof.Machine

theorem State.branch_frame {s t : State} {p : Int → Bool} {a b : ROperand} (h : s.branch p a b = .next t) :
    (∃ c, t = s.raise c) ∨ t = { s with pc := t.pc } := by
  rcases State.branch_next h with ⟨c, rfl, -⟩ | ⟨v0, v1, -, -, rfl⟩
  · exact .inl ⟨c, rfl⟩
  · right
    split <;> rfl

theorem execArb_frame {s t : State} {o : ROperand} (h : execArb o s = .next t) :
    (∃ c, t = s.raise c) ∨ t = { s with pc := t.pc, rb := t.rb } := by
  rcases execArb_next h with ⟨c, rfl, -⟩ | ⟨v, r, -, -, rfl⟩
  · exact .inl ⟨c, rfl⟩
  · exact .inr rfl

/-- With an input request outstanding this fails: there OUT completes that request (log 15). -/
theorem execOut_frame {s t : State} {o : ROperand} (h : execOut o s = .next t) (hin : ∀ a, s.pend ≠ some (.inp a)) :
    (∃ c, t = { s.raise c with hostOut := t.hostOut }) ∨
    t = { s with pc := t.pc, pend := t.pend, hostOut := t.hostOut, sent := t.sent } := by
  rcases execOut_next h with ⟨-, c, -, rfl⟩ | ⟨-, v, -, rfl⟩ | ⟨hpend, h⟩
  · exact .inl ⟨c, rfl⟩
  · exact .inr rfl
  rcases State.completePort_next h hpend with ⟨a, ha, -⟩ | ⟨v, -, h⟩
  · exact absurd ha (hin a)
  rcases State.completeOut_next h with ⟨rest, -, rfl⟩ | ⟨rest, -, rfl⟩ | ⟨rest, -, rfl⟩
  · exact .inr rfl
  · exact .inl ⟨.portFailure .out, rfl⟩
  · exact .inr rfl

/-- Settles O28: JT and JF are the jump shape, and HALT, ARB and OUT have a frame each. -/
theorem nonStoringFrame : Obligations.NonStoringFrame := by
  refine ⟨?_, ?_, fun _ _ _ => execArb_frame, fun _ _ _ => execOut_frame⟩
  · rintro a b i s t (rfl | rfl) h <;> exact State.branch_frame h
  · rintro s t ⟨⟩
    rfl

end Sys2Proof.Machine
end

section
/-! A BASE run ends (40_cycle.md R60, R64): each cycle that does not end it moves the pc by 4 within the tape. -/
namespace Sys2Proof.Machine

theorem State.commit_answers (s : State) (r : Except FaultCause State) : ∃ t, s.commit r = .next t := by
  cases r with
  | ok t => exact ⟨t, rfl⟩
  | error c => exact ⟨s.raise c, rfl⟩

/-- The next cycle of the same machine stands 4 cells on, and the tape reaches to there at least. -/
def State.MovesOn (s t : State) : Prop :=
  t.Enabled ∧ t.cfg = s.cfg ∧ t.tape.length = s.tape.length ∧ t.pc = s.pc + 4 ∧ t.pc ≤ s.tape.length

theorem exec_of_stores_ends_or_movesOn {i : Instr} {s : State} {a b : ROperand} {d : WOperand} (he : s.Enabled)
    (hf : s.fetch = .ok i) (hi : Claims.Stores i a b d) : ∃ t, exec i s = .next t ∧ (t.Terminal ∨ s.MovesOn t) := by
  obtain ⟨f, hexec⟩ := exec_eq_compute_of_stores hi s
  obtain ⟨t, ht⟩ : ∃ t, s.compute f a b d = .next t := s.commit_answers _
  refine ⟨t, hexec.trans ht, ?_⟩
  rcases State.compute_next ht with ⟨c, rfl, -⟩ | ⟨-, -, x, r, -, -, -, -, -, rfl⟩
  · exact .inl (by simp)
  · have hlen : i.length = 4 := StoresTo.length_eq hi
    exact .inr ⟨he, rfl, List.length_set, rfl, (State.advance_pc_inRange hf hlen).2⟩

/-- A cycle of BASE ends the run or is that of ADD or MUL. -/
theorem step_base_ends_or_movesOn {s : State} (he : s.Enabled) (hbase : s.cfg.profile = .base) :
    ∃ t, step s = .next t ∧ (t.Terminal ∨ s.MovesOn t) := by
  rw [step_enabled he]
  cases hf : s.fetch with
  | error c => exact ⟨_, cycle_error hf, .inl (by simp)⟩
  | ok i =>
    rw [cycle_ok hf]
    rcases State.fetch_base hf hbase with ⟨a, b, d, rfl⟩ | ⟨a, b, d, rfl⟩ | rfl
    · exact exec_of_stores_ends_or_movesOn he hf (.inl rfl)
    · exact exec_of_stores_ends_or_movesOn he hf (.inr (.inl rfl))
    · exact ⟨s.halt, rfl, .inl (by simp)⟩

/-- From a pc of at most `N`, with fewer than `4 * n` cells after it, `n` steps reach the end. -/
theorem base_run_ends_within {n : Nat} {s : State} (he : s.Enabled) (hbase : s.cfg.profile = .base)
    (hpc : s.pc ≤ s.tape.length) (hn : s.tape.length < s.pc + 4 * n) :
    ∃ k t, k ≤ n ∧ Sys2Proof.core.run k s = .next t ∧ t.Terminal := by
  induction n generalizing s with
  | zero => omega
  | succ n ih =>
    obtain ⟨t, hstep, hend | ⟨he', hcfg, hlen, hpc', hpcN⟩⟩ := step_base_ends_or_movesOn he hbase
    · exact ⟨1, t, by omega, run_succ hstep 0, hend⟩
    · obtain ⟨k, u, hk, hrun, hend⟩ := ih he' (hcfg ▸ hbase) (hlen ▸ hpcN) (by omega)
      exact ⟨k + 1, u, by omega, (run_succ hstep k).trans hrun, hend⟩

/-- Settles O43: `N / 4 + 1` steps are enough, which is at most the bound. -/
theorem baseRunEnds : Obligations.BaseRunEnds := by
  intro s he hbase hpc
  obtain ⟨k, t, hk, hrun, hend⟩ := base_run_ends_within (n := s.tape.length / 4 + 1) he hbase (by omega) (by omega)
  exact ⟨k, t, by omega, hrun, hend⟩

end Sys2Proof.Machine
end

section
/-! The `run` command (40_cycle.md R62, R63): the engine state picks what its issue and its return do. -/
namespace Sys2Proof.Machine

theorem State.hostTurn_of_run {s : State} {rest : Channel RunMove} (h : s.runTurn = (.run, rest)) :
    (s.state = .running ∧ s.hostTurn = { s with hostRuns := rest, cmd := .active }) ∨
    (s.state = .halted ∧ s.hostTurn = { s with hostRuns := rest, sent := s.sent ++ [.runDone .success] }) ∨
    (s.state = .faulted ∧ s.hostTurn = { s with hostRuns := rest, sent := s.sent ++ [.runDone (.fault s.fault)] }) := by
  rcases s.hostTurn_cases with ⟨rest', hwait, -⟩ | ⟨rest', hrun, hturn⟩
  · simp [h] at hwait
  · obtain rfl : rest = rest' := congrArg Prod.snd (h.symm.trans hrun)
    exact hturn

/-- Settles O40: the case of Running of a turn that issues `Run`, and the two cases of the return. -/
theorem runStartsAndReturns : Obligations.RunStartsAndReturns := by
  refine fun s => ⟨fun rest hidle hrun hturn => ?_, fun hactive hhalt => ?_, fun hactive hfault => ?_⟩
  · rw [step_idle hidle, Host.Outcome.next.injEq]
    simpa [hrun] using State.hostTurn_of_run hturn
  · have hterminal : s.Terminal := by simp [hhalt]
    rw [step_finish hactive hterminal, Host.Outcome.next.injEq]
    simpa [hhalt] using State.finishRun_cases hterminal
  · have hterminal : s.Terminal := by simp [hfault]
    rw [step_finish hactive hterminal, Host.Outcome.next.injEq]
    simpa [hfault] using State.finishRun_cases hterminal

/-- Settles O41: the two terminal cases of a turn that issues `Run`. -/
theorem rerunReportsAtOnce : Obligations.RerunReportsAtOnce := by
  intro s rest hidle hturn
  rw [step_idle hidle, Host.Outcome.next.injEq, Host.Outcome.next.injEq]
  refine ⟨fun hhalt => ?_, fun hfault => ?_⟩
  · simpa [hhalt] using State.hostTurn_of_run hturn
  · simpa [hfault] using State.hostTurn_of_run hturn

end Sys2Proof.Machine
end

section
/-! ADD and MUL (41_arithmetic.md R67): the exact result goes through `Fit`, so its three cases are those of `Fit`. -/
namespace Sys2Proof.Machine

/-- ADD and MUL are the three-operand shape, and what they compute is `Fit` of the exact result (R69, R70). -/
theorem exec_arith_eq_compute_fit {i : Instr} {a b : ROperand} {d : WOperand} {v0 v1 r : Int}
    (hi : i = .add a b d ∧ r = v0 + v1 ∨ i = .mul a b d ∧ r = v0 * v1) (s : State) :
    ∃ f, exec i s = s.compute f a b d ∧ f v0 v1 = s.fit r := by
  obtain ⟨rfl, rfl⟩ | ⟨rfl, rfl⟩ := hi
  · exact ⟨fun x y => s.fit (x + y), rfl, rfl⟩
  · exact ⟨fun x y => s.fit (x * y), rfl, rfl⟩

/-- Settles O18, by the three cases of `Fit`; the word of the wrapping case is `wrap_W(r)`. -/
theorem arithThroughFit : Obligations.ArithThroughFit := by
  intro s a b d v0 v1 x r i ha hb hd hi
  obtain ⟨f, hexec, hfit⟩ := exec_arith_eq_compute_fit hi s
  rw [hexec]
  refine ⟨fun hin => ?_, fun hout hfault => ?_, fun hout hwrap => ?_⟩
  · exact State.compute_ok ha hb hd (hfit.trans (State.fit_word hin))
  · exact State.compute_result_error ha hb hd (hfit.trans (State.fit_fault hout hfault))
  · exact ⟨wrap s.cfg.width r, inWord_wrap .., wrap_congr ..,
      State.compute_ok ha hb hd (hfit.trans (State.fit_wrap hout hwrap))⟩

end Sys2Proof.Machine
end

section
/-! HALT (42_halt.md R71): 99 is its only cell, and a Halted machine executes nothing. -/
namespace Sys2Proof.Machine

theorem exec_halt (s : State) : exec .halt s = .next { s with state := .halted } := rfl

/-- The low two digits of a head's cell are its opcode, and HALT has no mode digit. -/
theorem decodeHead_rejects_of_mod_halt (p : Profile) {c : Int} (hmod : c % 100 = 99) (hc : c ≠ 99) :
    ∃ r, decodeHead p c = .error r := by
  cases hd : decodeHead p c with
  | error r => exact ⟨r, rfl⟩
  | ok h =>
    obtain ⟨hcell, -⟩ := decodeHead_ok.mp hd
    have hop : h.opcode = .halt := by
      apply Opcode.number_inj
      rw [← h.cell_mod, Opcode.number]
      omega
    cases h with
    | halt => exact absurd hcell hc
    | f3 | f2 | f1 | inp => cases hop

theorem step_of_cell_halt {s : State} (he : s.Enabled) (hc : Memory.read s.tape s.pc = some 99) :
    step s = .next { s with state := .halted } := by
  have hcells : CellsAt s.tape s.pc (encode .halt) := ⟨hc, trivial⟩
  rw [step_enabled he, cycle_eq_exec he.2.2 rfl hcells, exec_halt]

/-- Settles O20: the cell 99 decodes to HALT, another cell that ends in 99 to nothing, and Halted shuts out the cycle. -/
theorem haltStopsInPlace : Obligations.HaltStopsInPlace := by
  refine ⟨exec_halt, fun _ => step_of_cell_halt, fun s t h => ?_, fun s c he hc hmod hne => ?_,
    fun _ => step_of_pc_outside⟩
  · have hn : ¬ (s.cmd = .active ∧ RunState.halted = .running) := by simp
    obtain ⟨htape, hpc, hstate, -⟩ := (stepTo_of_step h).frame_of_not_executing hn
    exact ⟨hstate, htape, hpc⟩
  · obtain ⟨r, hr⟩ := decodeHead_rejects_of_mod_halt s.cfg.profile hmod hne
    exact step_rejected he hc hr

end Sys2Proof.Machine
end

section
/-! The text of the dump (43_io_ports.md R81): canonical decimals, and a comma that ends every cell but the last. -/
namespace Sys2Proof.Machine

/-- A number of two digits or more begins as its quotient by ten does. -/
theorem toDigits_head_ne_zero {n : Nat} (hn : 0 < n) : (Nat.toDigits 10 n).head? ≠ some '0' := by
  induction n using Nat.strongRecOn with
  | ind n ih =>
    by_cases h : 10 ≤ n
    · rw [toDigits_append h, List.head?_append_of_ne_nil _ Nat.toDigits_ne_nil]
      exact ih (n / 10) (by omega) (by omega)
    · rw [Nat.toDigits_of_lt_base (by omega)]
      interval_cases n <;> decide

theorem digitsOf_toDigits {n : Nat} (hn : 0 < n) : Claims.DigitsOf n (Nat.toDigits 10 n) :=
  ⟨Nat.toDigits_ne_nil, toDigits_head_ne_zero hn,
    fun _ hc => Nat.isDigit_of_mem_toDigits (by omega) (by omega) hc, Nat.ofDigitChars_ten_toDigits⟩

theorem canonical_decimal (v : Int) : Claims.Canonical v (decimal v) := by
  refine ⟨?_, fun hpos => ?_, fun hneg => ?_⟩
  · rintro rfl
    rfl
  · rw [decimal, if_neg (by omega)]
    exact digitsOf_toDigits (by omega)
  · exact ⟨_, if_pos hneg, digitsOf_toDigits (by omega)⟩

/-- Settles O49: the texts of the cells are their decimals. -/
theorem dumpHasExactShape : Obligations.DumpHasExactShape := by
  refine fun s => ⟨s.tape.map decimal, ?_, ?_, fun hempty => ?_⟩
  · exact List.forall₂_map_right_iff.mpr (List.forall₂_same.mpr fun v _ => canonical_decimal v)
  · rw [State.dump, String.toList_ofList, State.dumpChars, dumpCells_eq_intercalate]
  · simp only [State.dump, State.dumpChars, hempty]
    rfl

theorem dumpCells_cons_cons (v w : Int) (t : List Int) :
    dumpCells (v :: w :: t) = decimal v ++ ([',', ' '] ++ dumpCells (w :: t)) := List.append_assoc ..

theorem dumpCells_cons_ne_nil (v : Int) (t : List Int) : dumpCells (v :: t) ≠ [] := by
  cases t with
  | nil => exact decimal_ne_nil v
  | cons w t => simp [dumpCells_cons_cons]

/-- The text of the first cell ends before the first comma. -/
theorem takeWhile_dumpCells_cons (v : Int) (t : List Int) :
    (dumpCells (v :: t)).takeWhile (· ≠ ',') = decimal v := by
  have hcomma : ∀ c ∈ decimal v, decide (c ≠ ',') = true := fun c hc =>
    decide_eq_true fun e => decimal_no_comma v (e ▸ hc)
  cases t with
  | nil => exact List.takeWhile_eq_self_iff.mpr hcomma
  | cons w t => rw [dumpCells_cons_cons, List.takeWhile_append_of_pos hcomma]; simp

/-- The first cells agree by their texts, and what follows them agrees with both texts cut off. -/
theorem dumpCells_injective {t u : List Int} (h : dumpCells t = dumpCells u) : t = u := by
  induction t generalizing u with
  | nil =>
    cases u with
    | nil => rfl
    | cons w u => exact absurd h.symm (dumpCells_cons_ne_nil w u)
  | cons v t ih =>
    cases u with
    | nil => exact absurd h (dumpCells_cons_ne_nil v t)
    | cons w u =>
      obtain rfl : v = w :=
        decimal_injective (by rw [← takeWhile_dumpCells_cons v t, h, takeWhile_dumpCells_cons])
      match t, u with
      | [], [] => rfl
      | [], y :: u => simp [dumpCells] at h
      | x :: t, [] => simp [dumpCells] at h
      | x :: t, y :: u =>
        rw [dumpCells_cons_cons, dumpCells_cons_cons] at h
        rw [ih (List.append_cancel_left (List.append_cancel_left h))]

/-- Settles O46: between its brackets the dump is the text of the cells, which determines them. -/
theorem dumpDeterminesTape : Obligations.DumpDeterminesTape := by
  intro s t h
  have hchars : s.dumpChars = t.dumpChars := String.ofList_injective h
  exact dumpCells_injective (List.append_cancel_left (List.append_cancel_right hchars))

end Sys2Proof.Machine
end

section
/-! The turns of the host (43_io_ports.md R78, R82, R83): what a channel gives, and which channel a step takes from. -/
namespace Sys2Proof.Machine

/-! ### What a channel gives -/

theorem Channel.turn_of_script {α : Type} {draw : Nat → α} {c : Channel α} {m : α} {l : List α} {r : Rest α}
    (h : c = ⟨m :: l, r⟩) : c.turn draw = (m, ⟨l, r⟩) := by rw [h, Channel.turn_script]

theorem Channel.turn_of_every {α : Type} {draw : Nat → α} {c : Channel α} {m : α} (h : c = ⟨[], .every m⟩) :
    c.turn draw = (m, c) := by rw [h, Channel.turn_every]

theorem Channel.turn_of_free {α : Type} {draw : Nat → α} {c : Channel α} {n : Nat} (h : c = ⟨[], .free n⟩) :
    c.turn draw = (draw n, ⟨[], .free (n + 1)⟩) := by rw [h, Channel.turn_free]

/-- A free value on the input port is a word. -/
theorem InMove.toWidth_inWord {W : Nat} {m : InMove} {v : Int} (h : m.toWidth W = .value v) : InWord W v := by
  cases m with
  | wait | fail => cases h
  | value w => cases h; exact inWord_wrap W w

/-! ### The channel a step takes from -/

theorem State.completePort_out {s : State} {v : Int} (h : s.pend = some (.out v)) : s.completePort = s.completeOut := by
  simp [State.completePort, h]

theorem step_held_inp {s : State} {a : Int} (hh : s.Held) (hp : s.pend = some (.inp a)) : step s = s.completeIn a := by
  rw [step_held hh, State.completePort_inp hp]

theorem step_held_out {s : State} {v : Int} (hh : s.Held) (hp : s.pend = some (.out v)) : step s = s.completeOut := by
  rw [step_held hh, State.completePort_out hp]

theorem hostIn_of_step_held_inp {s t : State} {a : Int} (hh : s.Held) (hp : s.pend = some (.inp a))
    (h : step s = .next t) : t.hostIn = s.inTurn.2 := by
  rw [step_held_inp hh hp] at h
  rcases State.completeIn_next h with ⟨rest, ht, rfl⟩ | ⟨rest, ht, rfl⟩ | ⟨v, rest, ht, ⟨-, rfl⟩ | ⟨-, rfl⟩⟩ <;>
    simp [ht]

theorem StepTo.hostIn_eq {s t : State} (h : StepTo s t) (hn : ∀ a, s.Held → s.pend ≠ some (.inp a)) :
    t.hostIn = s.hostIn := by
  cases h with
  | waitIn hh hp | failIn _ hh hp | storeIn hh hp => exact absurd hp (hn _ hh)
  | _ => rfl

theorem hostOut_of_step_held_out {s t : State} {v : Int} (hh : s.Held) (hp : s.pend = some (.out v))
    (h : step s = .next t) : t.hostOut = s.outTurn.2 := by
  rw [step_held_out hh hp] at h
  rcases State.completeOut_next h with ⟨rest, ht, rfl⟩ | ⟨rest, ht, rfl⟩ | ⟨rest, ht, rfl⟩ <;> simp [ht]

theorem StepTo.hostOut_eq {s t : State} (h : StepTo s t) (hn : ∀ v, s.Held → s.pend ≠ some (.out v)) :
    t.hostOut = s.hostOut := by
  cases h with
  | waitOut hh hp | failOut _ hh hp | ackOut hh hp => exact absurd hp (hn _ hh)
  | _ => rfl

theorem hostRuns_of_step_idle {s t : State} (hc : s.cmd = .idle) (h : step s = .next t) :
    t.hostRuns = s.runTurn.2 := by
  rw [step_idle hc] at h
  cases h
  rcases s.hostTurn_cases with ⟨rest, ht, e⟩ | ⟨rest, ht, ⟨-, e⟩ | ⟨-, e⟩ | ⟨-, e⟩⟩ <;> rw [e, ht]

theorem StepTo.hostRuns_eq {s t : State} (h : StepTo s t) (hc : s.cmd = .active) : t.hostRuns = s.hostRuns := by
  cases h with
  | hostWait hidle | hostRun hidle | hostRerun _ hidle => simp [hc] at hidle
  | _ => rfl

/-- Settles O50: the shapes of a channel, then for each channel the steps that take from it and the others. -/
theorem hostActsOnlyWhereItMay : Obligations.HostActsOnlyWhereItMay := by
  refine fun s => ⟨fun _ _ _ => Channel.turn_of_script, fun _ _ _ => Channel.turn_of_script,
    fun _ _ _ => Channel.turn_of_script, fun _ => Channel.turn_of_every, fun _ => Channel.turn_of_every,
    fun _ => Channel.turn_of_every, fun n h => ⟨_, Channel.turn_of_free h, fun _ => InMove.toWidth_inWord⟩,
    fun n h => ⟨_, Channel.turn_of_free h⟩, fun n h => ⟨_, Channel.turn_of_free h⟩, fun t h => ⟨?_, ?_, ?_⟩⟩
  · split
    next a hc hs hp => exact hostIn_of_step_held_inp ⟨hc, hs, by simp [hp]⟩ hp h
    next hn => exact (stepTo_of_step h).hostIn_eq fun a hh hp => hn a hh.1 hh.2.1 hp
  · split
    next v hc hs hp => exact hostOut_of_step_held_out ⟨hc, hs, by simp [hp]⟩ hp h
    next hn => exact (stepTo_of_step h).hostOut_eq fun v hh hp => hn v hh.1 hh.2.1 hp
  · split
    next hc => exact hostRuns_of_step_idle hc h
    next hc => exact (stepTo_of_step h).hostRuns_eq hc

end Sys2Proof.Machine
end

section
/-! A held core (43_io_ports.md R78): its step is the completion at the port instruction, which waits or ends the hold. -/
namespace Sys2Proof.Machine

/-- With a request outstanding IN and OUT are its completion (log 15). -/
theorem exec_portInstr_of_pend {i : Instr} {s : State} (hi : (∃ d, i = .inp d) ∨ ∃ o, i = .out o)
    (hp : s.pend ≠ none) : exec i s = s.completePort := by
  obtain ⟨p, hp⟩ := Option.ne_none_iff_exists'.mp hp
  rcases hi with ⟨d, rfl⟩ | ⟨o, rfl⟩
  · simp only [exec, execIn, hp]
  · simp only [exec, execOut, hp]

theorem State.PendMatches.fetch_portInstr {s : State} (h : s.PendMatches) (hp : s.pend ≠ none) :
    ∃ i, s.fetch = .ok i ∧ ((∃ d, i = .inp d) ∨ ∃ o, i = .out o) := by
  obtain ⟨_ | _, hp⟩ := Option.ne_none_iff_exists'.mp hp
  · obtain ⟨d, hf⟩ := h.of_inp hp
    exact ⟨_, hf, .inl ⟨d, rfl⟩⟩
  · obtain ⟨o, hf⟩ := h.of_out hp
    exact ⟨_, hf, .inr ⟨o, rfl⟩⟩

/-- Settles O10: the invariant gives the port instruction at the pc, and the hold makes its exec the completion. -/
theorem heldStepRunsPortInstr : Obligations.HeldStepRunsPortInstr := by
  intro s hinv hh
  obtain ⟨i, hf, hi⟩ := hinv.pendMatches.fetch_portInstr hh.2.2
  exact ⟨i, hf, hi, (step_held hh).trans (exec_portInstr_of_pend hi hh.2.2).symm⟩

/-! ### The host waits -/

theorem step_of_wait_inp {s : State} {a : Int} {rest : Channel InMove} (hh : s.Held) (hp : s.pend = some (.inp a))
    (ht : s.inTurn = (.wait, rest)) : step s = .next { s with hostIn := rest } := by
  rw [step_held_inp hh hp, State.completeIn, ht]
  rfl

theorem step_of_wait_out {s : State} {v : Int} {rest : Channel OutMove} (hh : s.Held) (hp : s.pend = some (.out v))
    (ht : s.outTurn = (.wait, rest)) : step s = .next { s with hostOut := rest } := by
  rw [step_held_out hh hp, State.completeOut, ht]
  rfl

theorem run_of_step_eq_self {s : State} (h : step s = .next s) (k : Nat) : Sys2Proof.core.run k s = .next s := by
  induction k with
  | zero => rfl
  | succ k ih => rw [run_succ h, ih]

/-! ### The host answers -/

theorem State.completeIn_answers (s : State) (a : Int) : ∃ t, s.completeIn a = .next t := by
  unfold State.completeIn
  split
  · exact ⟨_, rfl⟩
  · exact ⟨_, rfl⟩
  · exact State.commit_answers ..

theorem State.completeOut_answers (s : State) : ∃ t, s.completeOut = .next t := by
  unfold State.completeOut
  split <;> exact ⟨_, rfl⟩

theorem step_of_answer_inp {s : State} {a : Int} (hh : s.Held) (hp : s.pend = some (.inp a))
    (hm : s.inTurn.1 ≠ .wait) : ∃ t, step s = .next t ∧ t.pend = none := by
  obtain ⟨t, h⟩ := s.completeIn_answers a
  refine ⟨t, (step_held_inp hh hp).trans h, ?_⟩
  rcases State.completeIn_next h with ⟨rest, ht, -⟩ | ⟨rest, -, rfl⟩ | ⟨v, rest, -, ⟨-, rfl⟩ | ⟨-, rfl⟩⟩
  · simp [ht] at hm
  all_goals rfl

theorem step_of_answer_out {s : State} {v : Int} (hh : s.Held) (hp : s.pend = some (.out v))
    (hm : s.outTurn.1 ≠ .wait) : ∃ t, step s = .next t ∧ t.pend = none := by
  obtain ⟨t, h⟩ := s.completeOut_answers
  refine ⟨t, (step_held_out hh hp).trans h, ?_⟩
  rcases State.completeOut_next h with ⟨rest, ht, -⟩ | ⟨rest, -, rfl⟩ | ⟨rest, -, rfl⟩
  · simp [ht] at hm
  all_goals rfl

/-- Settles O37: for each port a wait, a wait for ever, which leaves a state whose step is itself, and an answer. -/
theorem heldCoreWaits : Obligations.HeldCoreWaits := by
  refine fun s hh => ⟨fun _ _ => step_of_wait_inp hh, fun _ _ => step_of_wait_out hh,
    fun a hp hw => run_of_step_eq_self (step_of_wait_inp hh hp (Channel.turn_of_every hw)),
    fun v hp hw => run_of_step_eq_self (step_of_wait_out hh hp (Channel.turn_of_every hw)),
    fun a m rest hp ht hm => step_of_answer_inp hh hp (by rwa [ht]),
    fun v m rest hp ht hm => step_of_answer_out hh hp (by rwa [ht])⟩

end Sys2Proof.Machine
end

section
/-! A channel that repeats one move (43_io_ports.md R82) repeats it after any number of steps. -/
namespace Sys2Proof.Machine

theorem hostIn_every_of_step {s t : State} {m : InMove} (hs : s.hostIn = ⟨[], .every m⟩) (h : step s = .next t) :
    t.hostIn = ⟨[], .every m⟩ := by
  have hturn : s.inTurn = (m, s.hostIn) := Channel.turn_of_every hs
  by_cases hp : ∃ a, s.Held ∧ s.pend = some (.inp a)
  · obtain ⟨a, hh, hp⟩ := hp
    rw [hostIn_of_step_held_inp hh hp h, hturn, hs]
  · rw [(stepTo_of_step h).hostIn_eq fun a hh hpend => hp ⟨a, hh, hpend⟩, hs]

theorem hostOut_every_of_step {s t : State} {m : OutMove} (hs : s.hostOut = ⟨[], .every m⟩) (h : step s = .next t) :
    t.hostOut = ⟨[], .every m⟩ := by
  have hturn : s.outTurn = (m, s.hostOut) := Channel.turn_of_every hs
  by_cases hp : ∃ v, s.Held ∧ s.pend = some (.out v)
  · obtain ⟨v, hh, hp⟩ := hp
    rw [hostOut_of_step_held_out hh hp h, hturn, hs]
  · rw [(stepTo_of_step h).hostOut_eq fun v hh hpend => hp ⟨v, hh, hpend⟩, hs]

theorem hostRuns_every_of_step {s t : State} {m : RunMove} (hs : s.hostRuns = ⟨[], .every m⟩) (h : step s = .next t) :
    t.hostRuns = ⟨[], .every m⟩ := by
  have hturn : s.runTurn = (m, s.hostRuns) := Channel.turn_of_every hs
  cases hc : s.cmd with
  | idle => rw [hostRuns_of_step_idle hc h, hturn, hs]
  | active => rw [(stepTo_of_step h).hostRuns_eq hc, hs]

/-- An acknowledgement ends OUT (R89). -/
theorem step_of_ack {s : State} {v : Int} {rest : Channel OutMove} (hh : s.Held) (hp : s.pend = some (.out v))
    (ht : s.outTurn = (.ack, rest)) : step s = .next { s with pc := s.pc + 2, pend := none, hostOut := rest } := by
  rw [step_held_out hh hp, State.completeOut, ht]
  rfl

/-- A value ends IN, where its cell is on the tape (R88). -/
theorem step_of_value {s : State} {a v : Int} {rest : Channel InMove} (hh : s.Held) (hp : s.pend = some (.inp a))
    (ht : s.inTurn = (.value v, rest)) (ha : InRange s.tape.length a) :
    step s = .next { s with tape := s.tape.set a.toNat v, pc := s.pc + 2, pend := none, hostIn := rest } := by
  rw [step_held_inp hh hp, State.completeIn_value ht ha]

theorem step_of_idle_wait {s : State} {rest : Channel RunMove} (hc : s.cmd = .idle) (ht : s.runTurn = (.wait, rest)) :
    step s = .next { s with hostRuns := rest } := by
  rw [step_idle hc, State.hostTurn, ht]
  rfl

/-- A second run reports at once, in either terminal state (R63; log 8). -/
theorem step_of_idle_rerun {s : State} {rest : Channel RunMove} (hc : s.cmd = .idle) (hs : s.Terminal)
    (ht : s.runTurn = (.run, rest)) :
    ∃ r, step s = .next { s with hostRuns := rest, sent := s.sent ++ [.runDone r] } := by
  rw [step_idle hc]
  rcases State.hostTurn_of_run ht with ⟨hrun, -⟩ | ⟨-, e⟩ | ⟨-, e⟩
  · exact absurd hrun hs
  · exact ⟨_, congrArg _ e⟩
  · exact ⟨_, congrArg _ e⟩

/-- Settles O51: the channel repeats its move as an invariant of the run, and each move has its own step. -/
theorem hostMayAnswerForEver : Obligations.HostMayAnswerForEver := by
  refine fun k s t hrun => ⟨fun m hs => ?_, fun m hs => ?_, fun m hs => ?_⟩
  · have ht : t.hostIn = ⟨[], .every m⟩ := run_invariant (fun _ _ => hostIn_every_of_step) hs hrun
    have hturn : t.inTurn = (m, t.hostIn) := Channel.turn_of_every ht
    refine ⟨ht, fun a hh hp => ⟨?_, fun hm => step_of_answer_inp hh hp (by rwa [hturn]), ?_⟩⟩
    · rintro rfl
      exact step_of_wait_inp hh hp hturn
    · rintro v rfl ha
      exact step_of_value hh hp hturn ha
  · have ht : t.hostOut = ⟨[], .every m⟩ := run_invariant (fun _ _ => hostOut_every_of_step) hs hrun
    have hturn : t.outTurn = (m, t.hostOut) := Channel.turn_of_every ht
    refine ⟨ht, fun v hh hp => ⟨?_, fun hm => step_of_answer_out hh hp (by rwa [hturn]), ?_⟩⟩
    · rintro rfl
      exact step_of_wait_out hh hp hturn
    · rintro rfl
      exact step_of_ack hh hp hturn
  · have ht : t.hostRuns = ⟨[], .every m⟩ := run_invariant (fun _ _ => hostRuns_every_of_step) hs hrun
    have hturn : t.runTurn = (m, t.hostRuns) := Channel.turn_of_every ht
    refine ⟨ht, fun hidle => ⟨?_, ?_, ?_⟩⟩
    · rintro rfl
      exact step_of_idle_wait hidle hturn
    · rintro rfl hrunning
      exact (runStartsAndReturns t).1 _ hidle hrunning hturn
    · rintro rfl hterminal
      exact step_of_idle_rerun hidle hterminal hturn

end Sys2Proof.Machine
end

section
/-! One transaction a step (43_io_ports.md R77), and none of a port in BASE (30_encoding.md R54). -/
namespace Sys2Proof.Machine

theorem StepTo.sends_at_most_one {s t : State} (h : StepTo s t) :
    t.sent = s.sent ∨
    (s.pend = none ∧ (∃ a, t.pend = some (.inp a)) ∧ t.sent = s.sent ++ [.inReq]) ∨
    (s.pend = none ∧ ∃ v, t.pend = some (.out v) ∧ t.sent = s.sent ++ [.outReq v]) ∨
    (t.Terminal ∧ t.cmd = .idle ∧ ∃ r, t.sent = s.sent ++ [.runDone r]) := by
  cases h with
  | issueIn he => exact .inr (.inl ⟨he.2.2, ⟨_, rfl⟩, rfl⟩)
  | issueOut he => exact .inr (.inr (.inl ⟨he.2.2, _, rfl, rfl⟩))
  | finish _ _ hs => exact .inr (.inr (.inr ⟨hs, rfl, _, rfl⟩))
  | hostRerun _ hc hs => exact .inr (.inr (.inr ⟨hs, hc, _, rfl⟩))
  | _ => exact .inl rfl

/-- Settles O38, by the kinds of step: two issue a request, two return a run, and the others send nothing. -/
theorem oneRequestAtATime : Obligations.OneRequestAtATime :=
  fun _ _ h => (stepTo_of_step h).sends_at_most_one

/-! ### The same machine with other answers of the host -/

/-- The machine with other answers on both port channels. -/
def State.withAnswers (s : State) (xs : Channel InMove) (ys : Channel OutMove) : State :=
  { s with hostIn := xs, hostOut := ys }

/-- The same outcome, its next state with other answers on both port channels. -/
def Result.withAnswers (r : Result) (xs : Channel InMove) (ys : Channel OutMove) : Result :=
  match r with
  | .next t => .next (t.withAnswers xs ys)
  | .fault e => .fault e
  | .refused e => .refused e

section
variable (s : State) (xs : Channel InMove) (ys : Channel OutMove)

theorem State.commit_withAnswers (r : Except FaultCause State) :
    (s.withAnswers xs ys).commit ((·.withAnswers xs ys) <$> r) = Result.withAnswers (s.commit r) xs ys := by
  cases r <;> rfl

theorem State.memWrite_withAnswers (a v : Int) :
    (s.withAnswers xs ys).memWrite a v = (·.withAnswers xs ys) <$> s.memWrite a v := by
  simp only [State.memWrite, State.withAnswers]
  cases Memory.write s.tape a v <;> rfl

theorem State.compute_withAnswers (f : Int → Int → Except FaultCause Int) (a b : ROperand) (d : WOperand) :
    (s.withAnswers xs ys).compute f a b d = Result.withAnswers (s.compute f a b d) xs ys := by
  unfold State.compute
  rw [← State.commit_withAnswers]
  simp only [map_bind, State.memWrite_withAnswers, bind_map_left, map_pure]
  rfl

theorem State.report_withAnswers : (s.withAnswers xs ys).report = s.report.withAnswers xs ys := by
  obtain ⟨_, _, _, _ | _ | _⟩ := s <;> rfl

theorem State.startRun_withAnswers : (s.withAnswers xs ys).startRun = s.startRun.withAnswers xs ys := by
  obtain ⟨⟨_, _, _, _⟩, _, _, _ | _ | _⟩ := s <;> rfl

theorem State.finishRun_withAnswers : (s.withAnswers xs ys).finishRun = s.finishRun.withAnswers xs ys :=
  State.report_withAnswers { s with cmd := .idle } xs ys

theorem State.hostTurn_withAnswers : (s.withAnswers xs ys).hostTurn = s.hostTurn.withAnswers xs ys := by
  have hturn : (s.withAnswers xs ys).runTurn = s.runTurn := rfl
  simp only [State.hostTurn, hturn]
  split
  · rfl
  · exact State.startRun_withAnswers (s.tookRun _) xs ys

variable {s}

theorem exec_withAnswers_of_base {i : Instr} (hf : s.fetch = .ok i) (hbase : s.cfg.profile = .base) :
    exec i (s.withAnswers xs ys) = Result.withAnswers (exec i s) xs ys := by
  rcases State.fetch_base hf hbase with ⟨a, b, d, rfl⟩ | ⟨a, b, d, rfl⟩ | rfl
  · exact State.compute_withAnswers s xs ys (fun x y => s.fit (x + y)) a b d
  · exact State.compute_withAnswers s xs ys (fun x y => s.fit (x * y)) a b d
  · rfl

theorem cycle_withAnswers_of_base (hbase : s.cfg.profile = .base) :
    (s.withAnswers xs ys).cycle = Result.withAnswers s.cycle xs ys := by
  have hfetch : (s.withAnswers xs ys).fetch = s.fetch := State.fetch_congr rfl rfl rfl rfl
  cases hf : s.fetch with
  | error c =>
    rw [cycle_error hf, cycle_error (hfetch.trans hf)]
    rfl
  | ok i => rw [cycle_ok hf, cycle_ok (hfetch.trans hf), exec_withAnswers_of_base xs ys hf hbase]

/-- BASE has no port instruction, so with no request outstanding no step looks at the answers of the host. -/
theorem step_withAnswers_of_base (hbase : s.cfg.profile = .base) (hpend : s.pend = none) :
    step (s.withAnswers xs ys) = Result.withAnswers (step s) xs ys := by
  cases hc : s.cmd with
  | idle =>
    rw [step_idle hc, step_idle (s := s.withAnswers xs ys) hc, State.hostTurn_withAnswers]
    rfl
  | active =>
    by_cases hs : s.state = .running
    · rw [step_enabled ⟨hc, hs, hpend⟩, step_enabled (s := s.withAnswers xs ys) ⟨hc, hs, hpend⟩,
        cycle_withAnswers_of_base xs ys hbase]
    · rw [step_finish hc hs, step_finish (s := s.withAnswers xs ys) hc hs, State.finishRun_withAnswers]
      rfl

end

/-- With no request outstanding after the step, it has not sent one. -/
theorem StepTo.sends_runDone_of_pend_eq_none {s t : State} (h : StepTo s t) (hpend : t.pend = none) :
    t.sent = s.sent ∨ ∃ r, t.sent = s.sent ++ [.runDone r] := by
  rcases h.sends_at_most_one with hsent | ⟨-, ⟨a, ha⟩, -⟩ | ⟨-, v, hv, -⟩ | ⟨-, -, hreturn⟩
  · exact .inl hsent
  · simp [hpend] at ha
  · simp [hpend] at hv
  · exact .inr hreturn

/-- Settles O39: no request outstanding stays so, and the step is the same under other answers of the host. -/
theorem baseNeverUsesPorts : Obligations.BaseNeverUsesPorts := by
  intro s t xs ys hbase hpend h
  have hstep : StepTo s t := stepTo_of_step h
  obtain ⟨hpend', -⟩ := hstep.base_pend_rb hbase hpend
  refine ⟨hpend', hstep.hostIn_eq fun a hh => absurd hpend hh.2.2, hstep.hostOut_eq fun v hh => absurd hpend hh.2.2,
    hstep.sends_runDone_of_pend_eq_none hpend', ?_⟩
  calc step (s.withAnswers xs ys) = Result.withAnswers (step s) xs ys := step_withAnswers_of_base xs ys hbase hpend
    _ = .next (t.withAnswers xs ys) := by rw [h]; rfl

end Sys2Proof.Machine
end

section
/-!
The cells of EXT (45_ext_profile.md R85, R86): the decoder's tables in the words of the spec. The operand kinds of an
opcode are its signature, and a mode digit is read exactly if its operand's kind allows it.
-/
namespace Sys2Proof

/-- The operand kinds of an opcode (R49). -/
def Opcode.kinds : Opcode → List Claims.Kind
  | .f3 _ => [.r, .r, .w]
  | .f2 _ => [.r, .r]
  | .f1 _ => [.r]
  | .inp => [.w]
  | .halt => []

theorem signature_eq_some {n : Nat} {sig : List Claims.Kind} :
    Claims.signature n = some sig ↔ ∃ op : Opcode, n = op.number ∧ op.kinds = sig := by
  constructor
  · intro h
    unfold Claims.signature at h
    split at h
    case h_11 => cases h
    all_goals obtain rfl := Option.some.inj h
    exacts [⟨.f3 .add, rfl, rfl⟩, ⟨.f3 .mul, rfl, rfl⟩, ⟨.inp, rfl, rfl⟩, ⟨.f1 .out, rfl, rfl⟩, ⟨.f2 .jt, rfl, rfl⟩,
      ⟨.f2 .jf, rfl, rfl⟩, ⟨.f3 .lt, rfl, rfl⟩, ⟨.f3 .eq, rfl, rfl⟩, ⟨.f1 .arb, rfl, rfl⟩, ⟨.halt, rfl, rfl⟩]
  · rintro ⟨op, rfl, rfl⟩
    rcases op with (_ | _ | _ | _) | (_ | _) | (_ | _) | _ | _ <;> rfl

/-- The mode digits of an operand kind: 0 to 2, and not 1 where the operand is written (R85). -/
def DigitAllowed : Claims.Kind → Nat → Prop
  | .r, x => x ≤ 2
  | .w, x => x ≤ 2 ∧ x ≠ 1

theorem RMode.exists_ofDigit {x : Nat} : (∃ m, RMode.ofDigit? x = some m) ↔ DigitAllowed .r x := by
  simp only [RMode.ofDigit_eq_some, DigitAllowed]
  constructor
  · rintro ⟨m, rfl⟩
    have hlt := m.digit_lt
    omega
  · intro h
    interval_cases x
    · exact ⟨.position, rfl⟩
    · exact ⟨.immediate, rfl⟩
    · exact ⟨.relative, rfl⟩

theorem WMode.exists_ofDigit {x : Nat} : (∃ m, WMode.ofDigit? x = some m) ↔ DigitAllowed .w x := by
  simp only [WMode.ofDigit_eq_some, DigitAllowed]
  constructor
  · rintro ⟨m, rfl⟩
    cases m <;> decide
  · rintro ⟨hle, hne⟩
    interval_cases x
    · exact ⟨.position, rfl⟩
    · exact absurd rfl hne
    · exact ⟨.relative, rfl⟩

theorem digit_eq_modeDigit (n i : Nat) : Claims.digit (2 + i) n = modeDigit n i := by
  rw [Claims.digit, modeDigit, pow_add, ← Nat.div_div_eq_div_mul]
  rfl

theorem div_pow_eq_highDigits (n k : Nat) : n / 10 ^ (2 + k) = highDigits n k := by
  rw [highDigits, pow_add, ← Nat.div_div_eq_div_mul]
  rfl

/-- R85 operand by operand: each mode digit is one its kind allows, and no digit stands above the last. -/
theorem modesLegal_iff {n : Nat} {sig : List Claims.Kind} :
    Claims.ModesLegal n sig ↔
      (∀ i k, sig[i]? = some k → DigitAllowed k (modeDigit n i)) ∧ highDigits n sig.length = 0 := by
  simp only [Claims.ModesLegal, digit_eq_modeDigit, div_pow_eq_highDigits, ← and_assoc, and_congr_left_iff]
  refine fun _ => ⟨fun ⟨hle, hw⟩ i k hk => ?_, fun h => ⟨fun i hi => ?_, fun i hi => (h i .w hi).2⟩⟩
  · obtain ⟨hi, -⟩ := List.getElem?_eq_some_iff.mp hk
    cases k with
    | r => exact hle i hi
    | w => exact ⟨hle i hi, hw i hk⟩
  · have hk := h i _ (List.getElem?_eq_getElem hi)
    cases hkind : sig[i] with
    | r => rwa [hkind] at hk
    | w => rw [hkind] at hk; exact hk.1

theorem forall_getElem?_cons {α : Type} {P : Nat → α → Prop} {x : α} {l : List α} :
    (∀ i k, (x :: l)[i]? = some k → P i k) ↔ P 0 x ∧ ∀ i k, l[i]? = some k → P (i + 1) k := by
  rw [← Nat.and_forall_add_one]
  simp

/-- The mode digits of a cell are read exactly if R85 holds of them. -/
theorem Opcode.exists_extHead {n : Nat} {op : Opcode} :
    (∃ h, op.extHead? n = some h) ↔ Claims.ModesLegal n op.kinds := by
  cases op <;>
    simp only [modesLegal_iff, Opcode.kinds, forall_getElem?_cons, ← RMode.exists_ofDigit, ← WMode.exists_ofDigit,
      Opcode.extHead?, List.length]
  case f3 op =>
    split
    next m0 m1 m2 h0 h1 h2 => simp [h0, h1, h2]
    next hunread =>
      simp only [reduceCtorEq, exists_false, false_iff]
      rintro ⟨⟨⟨m0, h0⟩, ⟨m1, h1⟩, ⟨m2, h2⟩, -⟩, -⟩
      exact hunread m0 m1 m2 h0 h1 h2
  case f2 op =>
    split
    next m0 m1 h0 h1 => simp [h0, h1]
    next hunread =>
      simp only [reduceCtorEq, exists_false, false_iff]
      rintro ⟨⟨⟨m0, h0⟩, ⟨m1, h1⟩, -⟩, -⟩
      exact hunread m0 m1 h0 h1
  case f1 op => split <;> simp [*]
  case inp => split <;> simp [*]
  case halt => simp

/-- Settles O4: a cell is that of a head exactly if its low digits are an opcode's and its mode digits are read. -/
theorem extAcceptsLegalModes : Obligations.ExtAcceptsLegalModes := by
  intro c
  simp only [decodeHead_ok, Head.inProfile, and_true, signature_eq_some]
  constructor
  · rintro ⟨h, rfl⟩
    refine ⟨Int.natCast_nonneg _, h.opcode.kinds, ⟨h.opcode, h.cell_mod, rfl⟩, ?_⟩
    exact Opcode.exists_extHead.mp ⟨h, (Opcode.extHead_eq_some h.cell_mod).mpr ⟨rfl, rfl⟩⟩
  · rintro ⟨hc, sig, ⟨op, hnumber, rfl⟩, hlegal⟩
    obtain ⟨h, hh⟩ := Opcode.exists_extHead.mpr hlegal
    obtain ⟨-, hcell⟩ := (Opcode.extHead_eq_some hnumber).mp hh
    exact ⟨h, by omega⟩

end Sys2Proof
end

section
/-! The frame of IN (45_ext_profile.md R88): its issue step, and each answer to its request. -/
namespace Sys2Proof.Machine

/-- The completion of IN keeps all but the cell its request names, the pc, the request and the input channel, or the
fault entry. -/
theorem State.completeIn_frame {s t : State} {a : Int} (h : s.completeIn a = .next t) :
    (∀ x, x ≠ a → Memory.read t.tape x = Memory.read s.tape x) ∧ t.tape.length = s.tape.length ∧
    t.hostIn = s.inTurn.2 ∧
    ((∃ c l, t = { s.raise c with hostIn := l }) ∨
      ∃ tape pc p l, t = { s with tape := tape, pc := pc, pend := p, hostIn := l }) := by
  rcases State.completeIn_next h with ⟨rest, ht, rfl⟩ | ⟨rest, ht, rfl⟩ | ⟨v, rest, ht, ⟨ha, rfl⟩ | ⟨-, rfl⟩⟩ <;>
    rw [ht]
  · exact ⟨fun _ _ => rfl, rfl, rfl, .inr ⟨_, _, _, _, rfl⟩⟩
  · exact ⟨fun _ _ => rfl, rfl, rfl, .inl ⟨_, _, rfl⟩⟩
  · exact ⟨fun _ hx => Memory.read_set_other v ha hx, List.length_set, rfl, .inr ⟨_, _, _, _, rfl⟩⟩
  · exact ⟨fun _ _ => rfl, rfl, rfl, .inl ⟨_, _, rfl⟩⟩

/-- Settles O29, by what IN can do: the fault of its operand, the issue, or the completion of its request. -/
theorem inFrame : Obligations.InFrame := by
  intro d s t h hout
  rcases execIn_next h with ⟨-, c, -, rfl⟩ | ⟨hpend, a, -, rfl⟩ | ⟨hpend, h⟩
  · exact ⟨fun _ _ => rfl, rfl, rfl, rfl, rfl, rfl, rfl, .inl rfl, .inl rfl, .inl ⟨c, rfl⟩⟩
  · exact ⟨fun _ _ => rfl, rfl, rfl, rfl, rfl, rfl, rfl, .inr ⟨hpend, ⟨a, rfl⟩, rfl⟩, .inl rfl, .inr ⟨rfl, rfl⟩⟩
  rcases State.completePort_next h hpend with ⟨a, ha, h⟩ | ⟨v, hv, -⟩
  · obtain ⟨hread, hlen, hturn, hrest⟩ := State.completeIn_frame h
    have hcells : ∀ x, s.pend ≠ some (.inp x) → Memory.read t.tape x = Memory.read s.tape x := by
      refine fun x hx => hread x ?_
      rintro rfl
      exact hx ha
    rcases hrest with ⟨c, l, rfl⟩ | ⟨tape, pc, p, l, rfl⟩
    · exact ⟨hcells, hlen, rfl, rfl, rfl, rfl, rfl, .inl rfl, .inr ⟨hpend, hturn⟩, .inl ⟨c, rfl⟩⟩
    · exact ⟨hcells, hlen, rfl, rfl, rfl, rfl, rfl, .inl rfl, .inr ⟨hpend, hturn⟩, .inr ⟨rfl, rfl⟩⟩
  · exact absurd hv (hout v)

end Sys2Proof.Machine
end

section
/-!
The relative base (45_ext_profile.md R84): only ARB writes it, and only ARB and relative operands read it, so another
`rb` passes through every other instruction unchanged (`exec_setRb`).
-/
namespace Sys2Proof.Machine

theorem StepTo.runs_arb_of_rb_ne {s t : State} (h : StepTo s t) (hne : t.rb ≠ s.rb) :
    s.Enabled ∧ ∃ o, s.fetch = .ok (.arb o) := by
  cases h with
  | adjustBase he hf => exact ⟨he, _, hf⟩
  | _ => exact absurd rfl hne

/-- The same outcome, its next state with another relative base. -/
def Result.setRb (x : Result) (r : Int) : Result :=
  match x with
  | .next t => .next (t.setRb r)
  | .fault e => .fault e
  | .refused e => .refused e

theorem State.resolveRead_setRb (s : State) (r : Int) {o : ROperand} (ho : o.mode ≠ .relative) :
    (s.setRb r).resolveRead o = s.resolveRead o := by
  obtain ⟨_ | _ | _, p⟩ := o
  · rfl
  · rfl
  · exact absurd rfl ho

theorem State.resolveWrite_setRb (s : State) (r : Int) {d : WOperand} (hd : d.mode ≠ .relative) :
    (s.setRb r).resolveWrite d = s.resolveWrite d := by
  obtain ⟨_ | _, p⟩ := d
  · rfl
  · exact absurd rfl hd

theorem State.commit_setRb (s : State) (r : Int) (x : Except FaultCause State) :
    (s.setRb r).commit ((·.setRb r) <$> x) = Result.setRb (s.commit x) r := by
  cases x <;> rfl

theorem State.memWrite_setRb (s : State) (r a v : Int) :
    (s.setRb r).memWrite a v = (·.setRb r) <$> s.memWrite a v := by
  simp only [State.memWrite, State.setRb]
  cases Memory.write s.tape a v <;> rfl

theorem State.compute_setRb (s : State) (r : Int) {f : Int → Int → Except FaultCause Int} {a b : ROperand}
    {d : WOperand} (ha : a.mode ≠ .relative) (hb : b.mode ≠ .relative) (hd : d.mode ≠ .relative) :
    (s.setRb r).compute f a b d = Result.setRb (s.compute f a b d) r := by
  rw [State.compute, State.compute, ← State.commit_setRb]
  simp only [State.resolveRead_setRb s r ha, State.resolveRead_setRb s r hb, State.resolveWrite_setRb s r hd,
    State.memWrite_setRb, map_bind, bind_map_left, map_pure]
  rfl

theorem State.branch_setRb (s : State) (r : Int) {taken : Int → Bool} {a b : ROperand} (ha : a.mode ≠ .relative)
    (hb : b.mode ≠ .relative) : (s.setRb r).branch taken a b = Result.setRb (s.branch taken a b) r := by
  rw [State.branch, State.branch, ← State.commit_setRb]
  simp only [State.resolveRead_setRb s r ha, State.resolveRead_setRb s r hb, map_bind, map_pure, apply_ite]
  rfl

theorem State.completeIn_setRb (s : State) (r a : Int) :
    (s.setRb r).completeIn a = Result.setRb (s.completeIn a) r := by
  have hturn : (s.setRb r).inTurn = s.inTurn := rfl
  rw [State.completeIn, State.completeIn, hturn]
  split
  · rfl
  · rfl
  · rename_i v rest _
    have hstate : ((s.setRb r).tookIn rest).answered = (s.tookIn rest).answered.setRb r := rfl
    rw [hstate, ← State.commit_setRb, State.memWrite_setRb]
    simp only [map_bind, bind_map_left, map_pure]
    rfl

theorem State.completeOut_setRb (s : State) (r : Int) :
    (s.setRb r).completeOut = Result.setRb s.completeOut r := by
  have hturn : (s.setRb r).outTurn = s.outTurn := rfl
  rw [State.completeOut, State.completeOut, hturn]
  split <;> rfl

theorem State.completePort_setRb (s : State) (r : Int) :
    (s.setRb r).completePort = Result.setRb s.completePort r := by
  rw [State.completePort, State.completePort, State.setRb_pend]
  split
  · rfl
  · exact s.completeIn_setRb r _
  · exact s.completeOut_setRb r

theorem execIn_setRb (s : State) (r : Int) {d : WOperand} (hd : d.mode ≠ .relative) :
    execIn d (s.setRb r) = Result.setRb (execIn d s) r := by
  rw [execIn, execIn, State.setRb_pend]
  split
  · exact s.completePort_setRb r
  · rw [State.resolveWrite_setRb s r hd, ← State.commit_setRb]
    simp only [map_bind, map_pure]
    rfl

theorem execOut_setRb (s : State) (r : Int) {o : ROperand} (ho : o.mode ≠ .relative) :
    execOut o (s.setRb r) = Result.setRb (execOut o s) r := by
  rw [execOut, execOut, State.setRb_pend]
  split
  · exact s.completePort_setRb r
  · rw [State.resolveRead_setRb s r ho, ← State.commit_setRb]
    simp only [map_bind, map_pure]
    rfl

/-- With a relative operand this fails, and for ARB too: both read `rb`. -/
theorem exec_setRb {i : Instr} (hi : Claims.noRelative i) (harb : ∀ o, i ≠ .arb o) (s : State) (r : Int) :
    exec i (s.setRb r) = Result.setRb (exec i s) r := by
  cases i with
  | add a b d | mul a b d | lt a b d | eq a b d =>
    obtain ⟨ha, hb, hd⟩ := hi
    exact s.compute_setRb r ha hb hd
  | jt a b | jf a b =>
    obtain ⟨ha, hb⟩ := hi
    exact s.branch_setRb r ha hb
  | halt => rfl
  | inp d => exact execIn_setRb s r hi
  | out o => exact execOut_setRb s r hi
  | arb o => exact absurd rfl (harb o)

/-- A step at an instruction that reads no `rb`: the fetch's check of its operands adds nothing to its exec. -/
theorem step_setRb_of_fetch {i : Instr} {s : State} (hi : Claims.noRelative i) (harb : ∀ o, i ≠ .arb o)
    (he : s.Enabled) (hf : s.fetch = .ok i) (r : Int) : step (s.setRb r) = Result.setRb (step s) r := by
  obtain ⟨hw, hcells, -⟩ := State.fetch_ok.mp hf
  rw [step_enabled he, cycle_ok hf, step_enabled (s := s.setRb r) he,
    cycle_eq_exec (s := s.setRb r) he.2.2 hw hcells, exec_setRb hi harb]

/-- Settles O36: the value of construction, the one kind of step that writes `rb`, then `exec` and the step under
another `rb`. -/
theorem relativeBaseIsolated : Obligations.RelativeBaseIsolated := by
  refine ⟨fun _ _ => rfl, fun s t h => (stepTo_of_step h).runs_arb_of_rb_ne, fun i s t r hi harb h => ?_,
    fun i s t r hi harb he hf h => ?_⟩
  · exact (exec_setRb hi harb s r).trans (by rw [h]; rfl)
  · exact (step_setRb_of_fetch hi harb he hf r).trans (by rw [h]; rfl)

end Sys2Proof.Machine
end

section
/-!
IN and OUT (45_ext_profile.md R88, R89): the issue of the request, and the host's answers to it (43_io_ports.md R78,
R79).
-/
namespace Sys2Proof.Machine

theorem exec_inp_issues {s : State} {d : WOperand} {a : Int} (hp : s.pend = none) (hd : s.resolveWrite d = .ok a) :
    exec (.inp d) s = .next (s.issue (.inp a) .inReq) := by
  simp only [exec, execIn, hp, hd]
  rfl

theorem exec_out_issues {s : State} {o : ROperand} {v : Int} (hp : s.pend = none) (ho : s.resolveRead o = .ok v) :
    exec (.out o) s = .next (s.issue (.out v) (.outReq v)) := by
  simp only [exec, execOut, hp, ho]
  rfl

theorem checkOperands_inp_error {s : State} {d : WOperand} {c : FaultCause} (hd : s.resolveWrite d = .error c) :
    s.checkOperands (.inp d) = .error c := Except.bind_error_iff.mpr (.inl hd)

theorem checkOperands_out_error {s : State} {o : ROperand} {c : FaultCause} (ho : s.resolveRead o = .error c) :
    s.checkOperands (.out o) = .error c := Except.bind_error_iff.mpr (.inl ho)

theorem exec_inp_of_pend {s : State} {a : Int} (d : WOperand) (hp : s.pend = some (.inp a)) :
    exec (.inp d) s = s.completeIn a := by
  rw [exec_portInstr_of_pend (.inl ⟨d, rfl⟩) (by simp [hp]), State.completePort_inp hp]

theorem exec_out_of_pend {s : State} {v : Int} (o : ROperand) (hp : s.pend = some (.out v)) :
    exec (.out o) s = s.completeOut := by
  rw [exec_portInstr_of_pend (.inr ⟨o, rfl⟩) (by simp [hp]), State.completePort_out hp]

theorem State.completeIn_fail {s : State} {rest : Channel InMove} (a : Int) (ht : s.inTurn = (.fail, rest)) :
    s.completeIn a = .next ((s.tookIn rest).answered.raise (.portFailure .inp)) := by
  rw [State.completeIn, ht]

theorem State.completeOut_fail {s : State} {rest : Channel OutMove} (ht : s.outTurn = (.fail, rest)) :
    s.completeOut = .next ((s.tookOut rest).answered.raise (.portFailure .out)) := by
  rw [State.completeOut, ht]

theorem State.completeOut_ack {s : State} {rest : Channel OutMove} (ht : s.outTurn = (.ack, rest)) :
    s.completeOut = .next ((s.tookOut rest).answered.advance 2) := by
  rw [State.completeOut, ht]

/-- Settles O21: the issue, the operand's fault, and the two answers of the host. -/
theorem inIssuesThenCompletes : Obligations.InIssuesThenCompletes := by
  refine fun s d => ⟨fun a hp hd => exec_inp_issues hp hd,
    fun c hp hd => exec_of_checkOperands_error hp (checkOperands_inp_error hd), fun a v rest hp ha ht => ?_,
    fun a rest hp ht => ?_⟩
  · rw [exec_inp_of_pend d hp, State.completeIn_value ht ha]
  · exact (exec_inp_of_pend d hp).trans (State.completeIn_fail a ht)

/-- Settles O22: the issue, the operand's fault, and the two answers of the host. -/
theorem outIssuesThenCompletes : Obligations.OutIssuesThenCompletes := by
  refine fun s o => ⟨fun v hp ho => exec_out_issues hp ho,
    fun c hp ho => exec_of_checkOperands_error hp (checkOperands_out_error ho), fun v rest hp ht => ?_,
    fun v rest hp ht => ?_⟩
  · exact (exec_out_of_pend o hp).trans (State.completeOut_ack ht)
  · exact (exec_out_of_pend o hp).trans (State.completeOut_fail ht)

end Sys2Proof.Machine
end

section
/-! JT and JF (45_ext_profile.md R90, R91) are the jump shape, LT and EQ (R92, R93) the three-operand shape. -/
namespace Sys2Proof.Machine

/-- JT and JF are the jump shape, and test for opposite values. -/
theorem exec_jt_jf_of_resolves {s : State} {a b : ROperand} {v0 v1 : Int} (ha : s.resolveRead a = .ok v0)
    (hb : s.resolveRead b = .ok v1) :
    exec (.jt a b) s = .next (if v0 = 0 then s.advance 3 else s.jumpTo v1) ∧
    exec (.jf a b) s = .next (if v0 = 0 then s.jumpTo v1 else s.advance 3) := by
  refine ⟨(State.branch_ok ha hb).trans ?_, (State.branch_ok ha hb).trans ?_⟩ <;> by_cases h : v0 = 0 <;>
    simp [nonZero, h]

/-- Settles O23, by whether the condition is 0; a jump out of the tape leaves an enabled cycle that cannot fetch. -/
theorem jumpsTakeTarget : Obligations.JumpsTakeTarget := by
  refine fun s a b => ⟨fun v0 v1 ha hb => ?_, fun c ha => ?_, fun v0 c ha hb => ?_⟩
  · obtain ⟨hjt, hjf⟩ := exec_jt_jf_of_resolves ha hb
    refine ⟨fun hne => ?_, fun hzero => ?_, fun he hout => step_of_pc_outside (s := { s with pc := v1 }) he hout⟩
    · rw [if_neg hne] at hjt hjf
      exact ⟨hjt, hjf⟩
    · rw [if_pos hzero] at hjt hjf
      exact ⟨hjt, hjf⟩
  · exact ⟨State.branch_operand_error (.inl ha), State.branch_operand_error (.inl ha)⟩
  · exact ⟨State.branch_operand_error (.inr ⟨v0, ha, hb⟩), State.branch_operand_error (.inr ⟨v0, ha, hb⟩)⟩

/-- Settles O24: LT and EQ store what `Claims.Computes` says of them. -/
theorem comparisonsWriteTruth : Obligations.ComparisonsWriteTruth :=
  fun _ _ _ _ _ _ _ ha hb hd =>
    ⟨exec_of_computes (.inr (.inr (.inl rfl))) ha hb hd rfl, exec_of_computes (.inr (.inr (.inr rfl))) ha hb hd rfl⟩

end Sys2Proof.Machine
end

section
/-! ARB (45_ext_profile.md R94): the sum with the old base goes through `Fit`, so its three cases are those of `Fit`. -/
namespace Sys2Proof.Machine

theorem exec_arb_ok {s : State} {o : ROperand} {v r : Int} (ho : s.resolveRead o = .ok v)
    (hr : s.fit (s.rb + v) = .ok r) : exec (.arb o) s = .next ((s.setRb r).advance 2) := by
  simp only [exec, execArb, ho, hr, bind, Except.bind]
  rfl

theorem exec_arb_fit_error {s : State} {o : ROperand} {v : Int} {c : FaultCause} (ho : s.resolveRead o = .ok v)
    (hr : s.fit (s.rb + v) = .error c) : exec (.arb o) s = .next (s.raise c) := by
  simp only [exec, execArb, ho, hr, bind, Except.bind, State.commit_error]

theorem exec_arb_operand_error {s : State} {o : ROperand} {c : FaultCause} (ho : s.resolveRead o = .error c) :
    exec (.arb o) s = .next (s.raise c) := by
  simp only [exec, execArb, ho, bind, Except.bind, State.commit_error]

/-- Settles O25, by the three cases of `Fit`; the word of the wrapping case is `wrap_W(rb + v)`. -/
theorem arbAdjustsBase : Obligations.ArbAdjustsBase := by
  refine fun s o => ⟨fun c ho => exec_arb_operand_error ho, fun v ho => ⟨fun hin => ?_, fun hout hfault => ?_,
    fun hout hwrap => ?_⟩⟩
  · exact exec_arb_ok ho (State.fit_word hin)
  · exact exec_arb_fit_error ho (State.fit_fault hout hfault)
  · exact ⟨wrap s.cfg.width (s.rb + v), inWord_wrap .., wrap_congr .., exec_arb_ok ho (State.fit_wrap hout hwrap)⟩

end Sys2Proof.Machine
end

section
/-! Faults are precise, and every step answers (60_exceptions.md R96 to R98). -/
namespace Sys2Proof.Machine

/-- A step from Running into Faulted is a fault of the cycle, or the failed completion of a port transaction, which
also takes the answer off its channel. -/
theorem StepTo.raises_of_faulted {s t : State} (h : StepTo s t) (hs : s.state = .running) (ht : t.state = .faulted) :
    s.cmd = .active ∧ ∃ c xs ys, t = { s.raise c with hostIn := xs, hostOut := ys } ∧
      (xs = s.hostIn ∨ (∃ a, s.pend = some (.inp a)) ∧ xs = s.inTurn.2) ∧
      (ys = s.hostOut ∨ (∃ v, s.pend = some (.out v)) ∧ ys = s.outTurn.2) := by
  cases h with
  | fault c he => exact ⟨he.1, c, _, _, rfl, .inl rfl, .inl rfl⟩
  | failIn c hh hp hturn => exact ⟨hh.1, c, _, _, rfl, .inr ⟨⟨_, hp⟩, (congrArg Prod.snd hturn).symm⟩, .inl rfl⟩
  | failOut c hh hp hturn => exact ⟨hh.1, c, _, _, rfl, .inl rfl, .inr ⟨⟨_, hp⟩, (congrArg Prod.snd hturn).symm⟩⟩
  | halt => cases ht
  | _ => cases hs.symm.trans ht

/-- Settles O31: the step raises a fault, and with `cmd` still Active the next one is the return of the run. -/
theorem faultsArePrecise : Obligations.FaultsArePrecise := by
  intro s t hs h ht
  obtain ⟨hactive, c, xs, ys, rfl, hin, hout⟩ := (stepTo_of_step h).raises_of_faulted hs ht
  obtain ⟨-, -, hreturn⟩ := runStartsAndReturns { s.raise c with hostIn := xs, hostOut := ys }
  exact ⟨c, rfl, hin, hout, rfl, rfl, rfl, rfl, rfl, hreturn hactive rfl⟩

theorem State.completePort_answers (s : State) : ∃ t, s.completePort = .next t := by
  unfold State.completePort
  split
  · exact ⟨s, rfl⟩
  · exact s.completeIn_answers _
  · exact s.completeOut_answers

/-- A port instruction issues its request or completes the outstanding one; every other instruction commits. -/
theorem exec_answers (i : Instr) (s : State) : ∃ t, exec i s = .next t := by
  cases i with
  | add | mul | lt | eq | jt | jf | arb => exact s.commit_answers _
  | halt => exact ⟨s.halt, rfl⟩
  | inp d =>
    by_cases hp : s.pend = none
    · simp only [exec, execIn, hp]
      exact s.commit_answers _
    · rw [exec_portInstr_of_pend (.inl ⟨d, rfl⟩) hp]
      exact s.completePort_answers
  | out o =>
    by_cases hp : s.pend = none
    · simp only [exec, execOut, hp]
      exact s.commit_answers _
    · rw [exec_portInstr_of_pend (.inr ⟨o, rfl⟩) hp]
      exact s.completePort_answers

theorem State.cycle_answers (s : State) : ∃ t, s.cycle = .next t := by
  cases hf : s.fetch with
  | error c => exact ⟨s.raise c, cycle_error hf⟩
  | ok i =>
    rw [cycle_ok hf]
    exact exec_answers i s

/-- Settles O32, by the kinds of step. -/
theorem everyStepAnswersNext : Obligations.EveryStepAnswersNext := by
  intro s
  cases hc : s.cmd with
  | idle => exact ⟨_, step_idle hc⟩
  | active =>
    by_cases hs : s.state = .running
    · by_cases hp : s.pend = none
      · rw [step_enabled ⟨hc, hs, hp⟩]
        exact s.cycle_answers
      · rw [step_held ⟨hc, hs, hp⟩]
        exact s.completePort_answers
    · exact ⟨_, step_finish hc hs⟩

/-- Settles O19: the four instructions are the three-operand shape, which resolves its operands before it computes. -/
theorem operandFaultComesFirst : Obligations.OperandFaultComesFirst := by
  intro i s a b d c hi hfault
  obtain ⟨f, hexec⟩ := exec_eq_compute_of_stores hi s
  exact hexec.trans (State.compute_operand_error hfault)

end Sys2Proof.Machine
end
